-- ==== Sys2Proof/Word.lean ====
section
/-! DEFINITION. The word types of ISA32: register and instruction words, the immediate field, the counters. -/

namespace Sys2Proof

/-- A 32-bit word: a register's content (10_state R20, read as signed two's complement by `BitVec.toInt`) or an
instruction word (30_encoding R50). -/
abbrev Word := BitVec 32

/-- The 21-bit immediate field `w[20:0]` (30_encoding R51). -/
abbrev ImmField := BitVec 21

/-- The 64-bit unsigned counters `cycles` and `instret` (10_state R25, R26). -/
abbrev Counter := BitVec 64

/-- A general register by its number, the `i` of the name `ri` (10_state R20, 00_scope R18). -/
abbrev Reg := Fin 8

/-- A character string, character by character (00_scope R10, the text level). -/
abbrev Text := List Char

end Sys2Proof
end

