-- ==== Sys2Proof/Entry.lean ====
section
/-! DEFINITION. What a program is written with: mnemonics, operands, program entries, and the errors that can be
reported of one (00_scope R10, R14; 60_exceptions R140). -/

namespace Sys2Proof

/-- The five opcodes (30_encoding R60). -/
inductive Mnemonic where
  | mov
  | add
  | sub
  | mul
  | div
  deriving DecidableEq, Repr

/-- Operand 2 of a symbolic instruction: a register, or an integer literal of any magnitude (00_scope R10). -/
inductive Op2 where
  | reg (r : Reg)
  | imm (v : Int)
  deriving DecidableEq, Repr

/-- The decoded source operand, 40_encode_decode R86's `src`, `immval`, `useimm` as one alternative: source field
`000` gives `imm` with the immediate field; any other gives `reg` with the register and the immediate field the
word holds, which no operation uses (30_encoding R58, R63). -/
inductive Source where
  | imm (field : ImmField)
  | reg (r : Reg) (unused : ImmField)
  deriving DecidableEq, Repr

/-- One entry of the program, at any of its three levels (00_scope R10, R14). -/
inductive Entry where
  /-- The text level: a character string. -/
  | text (t : Text)
  /-- The symbolic sentinel `End`. -/
  | sentinel
  /-- The symbolic triple `(mn, tgt, op2)`. -/
  | triple (mn : Mnemonic) (tgt : Reg) (op2 : Op2)
  /-- The word level: `Word(w)` skips the encoder. -/
  | word (w : Word)
  deriving DecidableEq, Repr

/-- The error kinds of 60_exceptions R140, in the order of its table. -/
inductive ErrorKind where
  /-- Encoder, parse stage: the token count is not 3. -/
  | malformedInstruction
  /-- Encoder, parse stage: the first token is no mnemonic. -/
  | unknownMnemonic
  /-- Encoder, parse stage: an operand token that should resolve to a register does not. -/
  | unknownRegister
  /-- Encoder, pack stage: a decimal literal below `-2^21`. -/
  | encoding
  /-- Decoder: the opcode field is not an assigned code. -/
  | decode
  /-- Sequencer, at the halt: no instruction was executed. -/
  | degenerateProgram
  /-- Execute unit, `div`: the source value is 0. Not fatal, and never recorded in the status. -/
  | divisionByZero
  deriving DecidableEq, Repr

/-- What a fatal error names besides the index (60_exceptions R140, column "records"). -/
inductive Token where
  /-- A token of the text, or the whole text. -/
  | text (t : Text)
  /-- The literal of a symbolic entry, which has no text. -/
  | value (v : Int)
  /-- The word the decoder rejected. -/
  | word (w : Word)
  /-- Nothing: `DegenerateProgramError`. -/
  | none
  deriving DecidableEq, Repr

/-- An error of the encoder or the decoder: its kind and what it names. -/
structure Diag where
  kind : ErrorKind
  token : Token
  deriving DecidableEq, Repr

end Sys2Proof
end

