-- ==== Sys2Proof/Config.lean ====
section
/-! DEFINITION. What an implementation fixes: the shape of the parameter tables, the bound on the program's length,
and the one value the spec leaves free. -/

namespace Sys2Proof

/-- The encoding parameters `OPC` and `REGCODE` (00_scope R7). They are arguments of the encoder and the decoder;
the spec's default values are `Sys2Proof.tables` in Decode.lean. -/
structure Tables where
  opc : Mnemonic → BitVec 5
  regcode : Reg → BitVec 3

/-- What 00_scope R7 asks of the tables: `OPC` injective, `REGCODE` injective with `REGCODE(r0) = 000`. -/
structure Tables.Valid (T : Tables) : Prop where
  opc_inj : ∀ a b, T.opc a = T.opc b → a = b
  regcode_inj : ∀ a b, T.regcode a = T.regcode b → a = b
  regcode_zero : T.regcode 0 = 0

/-- `PROG_LEN` is below `2^61` (00_scope R7; 93_implementation_defined U12). -/
def Config.progLenBound : Nat := 2 ^ 61

/-- FREE VALUE (log entry 5): does the CPI figure round up on an exact tie, for these `cycles` and `instret`? The
open parameter `CPI_ROUND` (92_eei_decisions D14). It has no body, so nothing can be proved of its value. -/
opaque Config.cpiTieUp : Nat → Nat → Bool

end Sys2Proof
end

