-- ==== Sys2Proof/Syntax.lean ====
section
/-! DEFINITION. The instructions of ISA32: one constructor per row of spec/opcode_table.json. -/

namespace Sys2Proof

/-- A decoded instruction. `tgt` is the target register, also the left operand of all but `mov`; `src` is the
source operand (40_encode_decode R86). The unused immediate field of the register form is kept, so that an
instruction determines its word. -/
inductive Instr where
  /-- `mov tgt op2` (41_mov R100). -/
  | mov (tgt : Reg) (src : Source)
  /-- `add tgt op2` (42_arithmetic R106). -/
  | add (tgt : Reg) (src : Source)
  /-- `sub tgt op2` (42_arithmetic R107). -/
  | sub (tgt : Reg) (src : Source)
  /-- `mul tgt op2` (42_arithmetic R108). -/
  | mul (tgt : Reg) (src : Source)
  /-- `div tgt op2` (42_arithmetic R109). -/
  | div (tgt : Reg) (src : Source)
  deriving DecidableEq, Repr

end Sys2Proof
end

