-- ==== Sys2Proof/WellFormed.lean ====
section
/-! DEFINITION. Which instructions and programs are well formed. -/

namespace Sys2Proof

/-- A register source is never `r0`: the source code `000` means "use the immediate" (30_encoding R58). -/
def Source.wellFormed : Source → Bool
  | .imm _ => true
  | .reg r _ => r != 0

/-- The source operand of an instruction. -/
def Instr.source : Instr → Source
  | .mov _ src => src
  | .add _ src => src
  | .sub _ src => src
  | .mul _ src => src
  | .div _ src => src

/-- The instructions the decoder can produce. -/
def WellFormed (i : Instr) : Bool := i.source.wellFormed

/-- A program within the bound of 00_scope R7. -/
def programWellFormed (p : List Entry) : Bool := decide (p.length < Config.progLenBound)

end Sys2Proof
end

