-- ==== Sys2Proof/Decode.lean ====
section
/-! DEFINITION. The encoding tables, the decoder (40_encode_decode R86 to R88), the encoder of a decoded instruction,
and the encoder unit: parsing a text and packing a triple (30_encoding R70 to R78; 40_encode_decode R80 to R85). -/

namespace Sys2Proof

/-- The default `OPC` (30_encoding R60, decision D1). -/
def opcDefault : Mnemonic → BitVec 5
  | .mov => 0b00001
  | .add => 0b00010
  | .sub => 0b00011
  | .mul => 0b00100
  | .div => 0b00101

/-- The default `REGCODE`: the register number in binary (30_encoding R61, decision D2). -/
def regcodeDefault (r : Reg) : BitVec 3 := BitVec.ofNat 3 r.val

/-- The tables the machine runs with. -/
def tables : Tables := ⟨opcDefault, regcodeDefault⟩

/-- All five mnemonics. -/
def Mnemonic.all : List Mnemonic := [.mov, .add, .sub, .mul, .div]

/-- All eight registers. -/
def allRegs : List Reg := [0, 1, 2, 3, 4, 5, 6, 7]

/-- `OPCinv` (40_encode_decode R88): the mnemonic with this code, when there is one. -/
def opcInv (T : Tables) (c : BitVec 5) : Option Mnemonic :=
  Mnemonic.all.find? (fun mn => T.opc mn == c)

/-- `regnum` (00_scope R18): the register with this code. For valid tables every code is some register's, so the
default is never used. -/
def regnum (T : Tables) (c : BitVec 3) : Reg :=
  (allRegs.find? (fun r => T.regcode r == c)).getD 0

/-! ## Fields of a word (30_encoding R51) -/

def opcodeField (w : Word) : BitVec 5 := w.extractLsb' 27 5
def targetField (w : Word) : BitVec 3 := w.extractLsb' 24 3
def sourceField (w : Word) : BitVec 3 := w.extractLsb' 21 3
def immField (w : Word) : ImmField := w.extractLsb' 0 21

/-- The word of four fields, the first the most significant (30_encoding R51). -/
def wordOfFields (opc : BitVec 5) (t s : BitVec 3) (i : ImmField) : Word := opc ++ t ++ s ++ i

/-! ## Decoded instructions and their words -/

/-- The instruction of a mnemonic and its operands. -/
def Instr.make (mn : Mnemonic) (tgt : Reg) (src : Source) : Instr :=
  match mn with
  | .mov => .mov tgt src
  | .add => .add tgt src
  | .sub => .sub tgt src
  | .mul => .mul tgt src
  | .div => .div tgt src

/-- The mnemonic of an instruction. -/
def Instr.mnemonic : Instr → Mnemonic
  | .mov _ _ => .mov
  | .add _ _ => .add
  | .sub _ _ => .sub
  | .mul _ _ => .mul
  | .div _ _ => .div

/-- The target register of an instruction. -/
def Instr.target : Instr → Reg
  | .mov tgt _ => tgt
  | .add tgt _ => tgt
  | .sub tgt _ => tgt
  | .mul tgt _ => tgt
  | .div tgt _ => tgt

/-- The source operand named by the source and immediate fields: code `000` selects the immediate
(30_encoding R58). -/
def sourceOfFields (T : Tables) (s : BitVec 3) (i : ImmField) : Source :=
  if s = 0 then .imm i else .reg (regnum T s) i

/-- The source field of a source operand. -/
def Source.code (T : Tables) : Source → BitVec 3
  | .imm _ => 0
  | .reg r _ => T.regcode r

/-- The immediate field of a source operand. -/
def Source.field : Source → ImmField
  | .imm i => i
  | .reg _ i => i

/-- `Decode` (40_encode_decode R86, R87): total on every 32-bit word; the only error is `DecodeError(w)`, for an
opcode field that is not assigned (R88). -/
def decodeWith (T : Tables) (w : Word) : Except Diag Instr :=
  match opcInv T (opcodeField w) with
  | none => .error ⟨.decode, .word w⟩
  | some mn =>
    .ok (Instr.make mn (regnum T (targetField w)) (sourceOfFields T (sourceField w) (immField w)))

/-- The decoder of the machine: `Decode` with the default tables. -/
def decode (w : Word) : Except Diag Instr := decodeWith tables w

/-- The word of a decoded instruction: the inverse of `decodeWith`. -/
def encodeWith (T : Tables) (i : Instr) : Word :=
  wordOfFields (T.opc i.mnemonic) (T.regcode i.target) (i.source.code T) i.source.field

/-- The word of an instruction with the default tables. -/
def encode (i : Instr) : Word := encodeWith tables i

/-- The instruction read from a word given as a number, bit 0 its least significant bit; the bits from `nbits` on
are 0. Every instruction is one 32-bit word (30_encoding R50). -/
def decodeTableWord (nbits w : Nat) : Option Instr :=
  match decode (BitVec.ofNat 32 (w % 2 ^ nbits)) with
  | .ok i => some i
  | .error _ => none

/-! ## The encoder's pack stage (40_encode_decode R80 to R84) -/

/-- `ImmField(v)` (40_encode_decode R82, R84): none is `EncodingError`. -/
def packImm (v : Int) : Option ImmField :=
  if 0 ≤ v then some (BitVec.ofNat 21 (v.toNat % 2 ^ 21))
  else if -(2 ^ 21) ≤ v then some (BitVec.ofNat 21 (2 ^ 21 + v).toNat)
  else none

/-- `Encode(mn, tgt, op2)` (40_encode_decode R80 to R82): none is `EncodingError` (R84). -/
def pack (T : Tables) (mn : Mnemonic) (tgt : Reg) (op2 : Op2) : Option Word :=
  match op2 with
  | .reg r => some (wordOfFields (T.opc mn) (T.regcode tgt) (T.regcode r) 0)
  | .imm v =>
    match packImm v with
    | none => none
    | some i => some (wordOfFields (T.opc mn) (T.regcode tgt) 0 i)

/-! ## The encoder's parse stage (30_encoding R70 to R78) -/

/-- Whitespace is space and tab (30_encoding R70). -/
def isBlank (c : Char) : Bool := c == ' ' || c == '\t'

/-- The tokens of a text whose current token, read so far and reversed, is `cur`. -/
def tokensFrom (cur : List Char) : Text → List Text
  | [] => if cur.isEmpty then [] else [cur.reverse]
  | c :: rest =>
    if isBlank c then
      if cur.isEmpty then tokensFrom [] rest else cur.reverse :: tokensFrom [] rest
    else tokensFrom (c :: cur) rest

/-- The tokens of a text: its maximal runs of characters that are not whitespace (30_encoding R70). -/
def tokens (t : Text) : List Text := tokensFrom [] t

/-- The spelling of a mnemonic (30_encoding R73). -/
def Mnemonic.spelling : Mnemonic → Text
  | .mov => ['m', 'o', 'v']
  | .add => ['a', 'd', 'd']
  | .sub => ['s', 'u', 'b']
  | .mul => ['m', 'u', 'l']
  | .div => ['d', 'i', 'v']

/-- A decimal digit's character. -/
def digitChar (d : Nat) : Char := Char.ofNat (48 + d)

/-- The spelling of a register's name, `r0` to `r7` (30_encoding R74). -/
def regSpelling (r : Reg) : Text := ['r', digitChar r.val]

/-- The mnemonic a token spells, in lower case only (30_encoding R73). -/
def mnemonicOf (tok : Text) : Option Mnemonic := Mnemonic.all.find? (fun mn => mn.spelling == tok)

/-- The register a token names, in lower case only (30_encoding R74). -/
def regOf (tok : Text) : Option Reg := allRegs.find? (fun r => regSpelling r == tok)

/-- The value of a decimal digit. -/
def digitOf (c : Char) : Option Nat :=
  if 48 ≤ c.toNat ∧ c.toNat ≤ 57 then some (c.toNat - 48) else none

/-- The digits of a literal in base ten, after the value `acc` of those already read. -/
def digitsFrom (acc : Nat) : Text → Option Nat
  | [] => some acc
  | c :: rest =>
    match digitOf c with
    | none => none
    | some d => digitsFrom (10 * acc + d) rest

/-- One or more decimal digits (30_encoding R76). -/
def digits (tok : Text) : Option Nat := if tok.isEmpty then none else digitsFrom 0 tok

/-- A decimal literal: an optional sign and one or more digits (30_encoding R76). -/
def literalOf (tok : Text) : Option Int :=
  match tok with
  | '-' :: rest => (digits rest).map (fun n => -(Int.ofNat n))
  | '+' :: rest => (digits rest).map Int.ofNat
  | _ => (digits tok).map Int.ofNat

/-- Operand 2: a register name, otherwise a decimal literal (30_encoding R75, R76). -/
def op2Of (tok : Text) : Option Op2 :=
  match regOf tok with
  | some r => some (.reg r)
  | none => (literalOf tok).map Op2.imm

/-- The three tokens of the sentinel (30_encoding R72). -/
def sentinelTokens : List Text := [['e', 'n', 'd'], ['0'], ['0']]

/-- The encoder on a text: the token count, the mnemonic, operand 1, operand 2, the immediate range, in this order;
the first check that fails decides the error (30_encoding R78; 40_encode_decode R85). -/
def encodeText (T : Tables) (t : Text) : Except Diag Word :=
  match tokens t with
  | [m, a, b] =>
    match mnemonicOf m with
    | none => .error ⟨.unknownMnemonic, .text m⟩
    | some mn =>
      match regOf a with
      | none => .error ⟨.unknownRegister, .text a⟩
      | some tgt =>
        match op2Of b with
        | none => .error ⟨.unknownRegister, .text b⟩
        | some op2 =>
          match pack T mn tgt op2 with
          | none => .error ⟨.encoding, .text b⟩
          | some w => .ok w
  | _ => .error ⟨.malformedInstruction, .text t⟩

/-- The encoder on a symbolic triple; it fails on a literal below `-2^21` only (40_encode_decode R84). -/
def encodeTriple (T : Tables) (mn : Mnemonic) (tgt : Reg) (op2 : Op2) : Except Diag Word :=
  match pack T mn tgt op2, op2 with
  | some w, _ => .ok w
  | none, .imm v => .error ⟨.encoding, .value v⟩
  | none, .reg _ => .error ⟨.encoding, .none⟩

/-! ## Program entries -/

/-- Is the entry the sentinel `end 0 0` (30_encoding R72)? -/
def Entry.isSentinel : Entry → Bool
  | .text t => tokens t == sentinelTokens
  | .sentinel => true
  | .triple _ _ _ => false
  | .word _ => false

/-- The word of an entry, or the encoder's error. A word-level entry skips the encoder (43_sequencing R123). The
sequencer tests for the sentinel first; given to the encoder all the same, `end` is no mnemonic (30_encoding R72). -/
def Entry.encode (T : Tables) : Entry → Except Diag Word
  | .text t => encodeText T t
  | .sentinel => .error ⟨.unknownMnemonic, .text ['e', 'n', 'd']⟩
  | .triple mn tgt op2 => encodeTriple T mn tgt op2
  | .word w => .ok w

/-- The instruction text as supplied, which a report row carries; a word-level entry has none (43_sequencing
R132). -/
def Entry.reported : Entry → Option Entry
  | .word _ => none
  | e => some e

/-! ## Canonical words (30_encoding R66) -/

/-- A word is canonical when its opcode is assigned and its source field is `000` or its immediate field is 0. -/
def canonicalWord (T : Tables) (w : Word) : Bool :=
  (opcInv T (opcodeField w)).isSome && (sourceField w == 0 || immField w == 0)

/-- The second operand that re-encodes a decoded source (40_encode_decode R93). The immediate is read as signed. -/
def Source.op2 : Source → Op2
  | .imm i => .imm i.toInt
  | .reg r _ => .reg r

/-- The word as the report prints it: bit groups of widths 5, 3, 3 and 21 (30_encoding R68). -/
def bitsOf (n : Nat) (v : BitVec n) : Text :=
  (List.range n).map (fun k => if v.getMsbD k then '1' else '0')

/-- The four groups with single spaces between them (30_encoding R68). -/
def wordText (w : Word) : Text :=
  bitsOf 5 (opcodeField w) ++ [' '] ++ bitsOf 3 (targetField w) ++ [' '] ++ bitsOf 3 (sourceField w) ++ [' ']
    ++ bitsOf 21 (immField w)

end Sys2Proof
end

