-- ==== Sys2Proof/Machine/State.lean ====
section
/-! DEFINITION. The state of ISA32 (10_state R30), with the program it runs and the trace it emits; the reasons a
step can stop; the state after reset. -/

namespace Sys2Proof.Machine

open Sys2Proof

/-- The run status (10_state R27). -/
inductive Status where
  | running
  | halted
  /-- A fatal error, with what it records (60_exceptions R150). -/
  | faulted (kind : ErrorKind) (token : Token) (pc : Nat)
  deriving DecidableEq, Repr

/-- An event of the output trace (00_scope R12). -/
inductive Event where
  /-- The report row of an executed instruction (43_sequencing R132): its index, its text as supplied (none for a
  word-level entry), its word and its cost. -/
  | row (pc : Nat) (text : Option Entry) (word : Word) (cost : Nat)
  /-- The diagnostic of a division by zero (43_sequencing R133). -/
  | divZero (pc : Nat)
  deriving DecidableEq, Repr

/-- The machine's state. `x`, `pc`, `cycles`, `instret` and `status` are the tuple of 10_state R30; `prog` is the
input program (00_scope R10), which no step changes (R9), and `trace` the output, oldest event first (R12), which no
step reads. -/
structure State where
  x : Vector Word 8
  pc : Nat
  cycles : Counter
  instret : Counter
  status : Status
  prog : List Entry
  trace : List Event
  deriving DecidableEq, Repr

/-- Why a step answers no state. An error of the spec is no such fault: it is the next state whose status is
`Faulted` (60_exceptions R150). -/
inductive Fault where
  /-- Raised by the sequencer from a halted state, from which no step is taken (10_state R27). Safe. -/
  | runHalted
  /-- Raised by the sequencer from a faulted state, from which no step is taken (10_state R27, 60_exceptions R151).
  Safe. -/
  | runFaulted
  /-- Raised by the sequencer when `pc` is above the program's length, where no fetch is defined (00_scope R17); no
  run reaches it (10_state R23). Safe. -/
  | fetchOutOfRange
  deriving DecidableEq, Repr

/-- Why a step is refused. -/
inductive Refusal where
  /-- Raised by an arm of `exec` for an instruction without a meaning; no arm does. Safe. -/
  | notModelled (mnemonic : String)
  /-- Raised by the sequencer for a program of `2^61` entries or more (93_implementation_defined U12). Safe. -/
  | programTooLong
  deriving DecidableEq, Repr

/-- The state after reset (10_state R31; 70_reset R160), with no program supplied yet (log entry 1). -/
def State.reset : State where
  x := Vector.replicate 8 0
  pc := 0
  cycles := 0
  instret := 0
  status := .running
  prog := []
  trace := []

end Sys2Proof.Machine
end

