-- ==== Sys2Proof/Machine/Ops.lean ====
section
/-! DEFINITION. The named operations over the state: registers, fetch, the counters, the trace, the steps every
instruction shares, taking a fatal error, the halt, and the host's reset and load. -/

namespace Sys2Proof.Machine

open Sys2Proof

/-! ## Registers (00_scope R17; 10_state R20, R21: none is hardwired) -/

/-- `x[r]`. -/
def State.read (s : State) (r : Reg) : Word := s.x.get r

/-- `x[r] <- v`. -/
def State.write (s : State) (r : Reg) (v : Word) : State := { s with x := s.x.set r.val v r.isLt }

/-! ## The program (20_memory R41, R42) -/

/-- `ProgFetch(pc)`; none when `pc` is not below `PROG_LEN`. -/
def State.fetch (s : State) : Option Entry := s.prog[s.pc]?

/-! ## The lines of a step that every executed instruction shares (43_sequencing R120) -/

/-- `COST` (00_scope R6; 40_encode_decode R91). -/
def cost : Mnemonic → Nat
  | .mov => 1
  | .add => 1
  | .sub => 1
  | .mul => 4
  | .div => 6

/-- `emit E` (00_scope R17). -/
def State.emit (s : State) (e : Event) : State := { s with trace := s.trace ++ [e] }

/-- Step 4: the cost is added and the instruction counted (43_sequencing R125, R131). -/
def State.charge (s : State) (mn : Mnemonic) : State :=
  { s with cycles := s.cycles + BitVec.ofNat 64 (cost mn), instret := s.instret + 1 }

/-- The report row of the instruction at `pc`, its word the one of the tables `T` (43_sequencing R126, R132). -/
def State.rowWith (s : State) (T : Tables) (i : Instr) : Event :=
  .row s.pc (s.fetch.bind Entry.reported) (encodeWith T i) (cost i.mnemonic)

/-- The report row with the spec's default tables. -/
def State.rowOf (s : State) (i : Instr) : Event := s.rowWith tables i

/-- Steps 4 and 5, before the operation: charge, then emit the row (43_sequencing R125, R126). The row is all that
depends on the tables. -/
def State.issue (s : State) (T : Tables) (i : Instr) : State := (s.charge i.mnemonic).emit (s.rowWith T i)

/-- Step 7: `pc <- pc + 1` (43_sequencing R128). -/
def State.advance (s : State) : State := { s with pc := s.pc + 1 }

/-! ## Fatal errors and the halt -/

/-- `raise K(token)`, taking a fatal error: the status records the kind, the token and the index, and nothing else
changes (00_scope R17; 60_exceptions R150). No operation returns from it (60_exceptions R151). -/
def State.raise (s : State) (kind : ErrorKind) (token : Token) : State :=
  { s with status := .faulted kind token s.pc }

/-- `Halt` (43_sequencing R120, R137): a run that executed nothing is a degenerate program. -/
def State.halt (s : State) : State :=
  if s.instret = 0 then s.raise .degenerateProgram .none else { s with status := .halted }

/-! ## What the host does before a run -/

/-- The `reset` event (00_scope R11; 70_reset R160): every piece of state takes its reset value and the trace is
emptied; the program is the host's input and stays. -/
def State.resetEvent (s : State) : State := { State.reset with prog := s.prog }

/-- The start of a run of the program `p` (43_sequencing R138): the program is supplied and reset applied. -/
def State.load (p : List Entry) : State := { State.reset with prog := p }

/-- `s` with the word-level entry `w` at `pc` (the entries before it padded where the program is shorter) and the
run going on. -/
def State.placeWord (s : State) (w : Word) : State :=
  { s with
    status := .running
    prog := s.prog.take s.pc ++ List.replicate (s.pc - s.prog.length) Entry.sentinel
      ++ Entry.word w :: s.prog.drop (s.pc + 1) }

end Sys2Proof.Machine
end

