-- ==== Sys2Proof/Machine/Operands.lean ====
section
/-! DEFINITION. The operand forms: reading the immediate as signed, and resolving the source operand. -/

namespace Sys2Proof.Machine

open Sys2Proof

/-- `wrap32` (00_scope R16): the signed 32-bit value congruent to `z` modulo `2^32`. -/
def wrap32 (z : Int) : Word := BitVec.ofInt 32 z

/-- `sext_21` (00_scope R16; 30_encoding R57): the top bit set means the value minus `2^21`. -/
def sext21 (i : ImmField) : Int := if i.toNat < 2 ^ 20 then (i.toNat : Int) else (i.toNat : Int) - 2 ^ 21

/-- `Resolve` (40_encode_decode R90): the immediate, or the named register's current value. Register code `000` means
the immediate on every instruction (30_encoding R58), so this never reads `x[0]`. -/
def State.resolve (s : State) : Source → Word
  | .imm i => wrap32 (sext21 i)
  | .reg r i => if r = 0 then wrap32 (sext21 i) else s.read r

end Sys2Proof.Machine
end

