-- ==== Sys2Proof/Machine/Alu.lean ====
section
/-! DEFINITION. The arithmetic of the execute unit: exact integer results of the signed operands, narrowed by
`wrap32` (42_arithmetic R105). There are no flags (10_state R28), so there is no flag computation. -/

namespace Sys2Proof.Machine

open Sys2Proof

/-- The sum (42_arithmetic R106). -/
def aluAdd (a b : Word) : Word := wrap32 (a.toInt + b.toInt)

/-- The difference, `a` the minuend (42_arithmetic R107). -/
def aluSub (a b : Word) : Word := wrap32 (a.toInt - b.toInt)

/-- The product (42_arithmetic R108). -/
def aluMul (a b : Word) : Word := wrap32 (a.toInt * b.toInt)

/-- The floor of the exact quotient (42_arithmetic R109, R111, R112); used for `b` not 0 only. -/
def aluDiv (a b : Word) : Word := wrap32 (Int.fdiv a.toInt b.toInt)

end Sys2Proof.Machine
end

