-- ==== Sys2Proof/Machine/Arithmetic.lean ====
section
/-! DEFINITION. Arithmetic: `add`, `sub`, `mul`, `div` (42_arithmetic). Each reads its operands after the row is
emitted and before the write (70_reset_and_hazards R164). The tables are a parameter (00_scope R7, R9), which only the
row depends on; the definition without it takes the spec's defaults. -/

namespace Sys2Proof.Machine

open Sys2Proof

/-- `add` (42_arithmetic R106): target ← target + source value. -/
def execAddWith (T : Tables) (tgt : Reg) (src : Source) (s : State) : Host.Outcome State Fault Refusal :=
  let t := s.issue T (.add tgt src)
  .next (t.write tgt (aluAdd (t.read tgt) (t.resolve src))).advance

/-- `add` with the spec's default tables. -/
def execAdd (tgt : Reg) (src : Source) (s : State) : Host.Outcome State Fault Refusal :=
  execAddWith tables tgt src s

/-- `sub` (42_arithmetic R107): target ← target − source value. -/
def execSubWith (T : Tables) (tgt : Reg) (src : Source) (s : State) : Host.Outcome State Fault Refusal :=
  let t := s.issue T (.sub tgt src)
  .next (t.write tgt (aluSub (t.read tgt) (t.resolve src))).advance

/-- `sub` with the spec's default tables. -/
def execSub (tgt : Reg) (src : Source) (s : State) : Host.Outcome State Fault Refusal :=
  execSubWith tables tgt src s

/-- `mul` (42_arithmetic R108): target ← target × source value. -/
def execMulWith (T : Tables) (tgt : Reg) (src : Source) (s : State) : Host.Outcome State Fault Refusal :=
  let t := s.issue T (.mul tgt src)
  .next (t.write tgt (aluMul (t.read tgt) (t.resolve src))).advance

/-- `mul` with the spec's default tables. -/
def execMul (tgt : Reg) (src : Source) (s : State) : Host.Outcome State Fault Refusal :=
  execMulWith tables tgt src s

/-- The operation of `div` on an issued state (42_arithmetic R109): a zero divisor emits `DivZero(pc)` and writes
nothing (R110). -/
def State.divide (t : State) (tgt : Reg) (val : Word) : State :=
  if val = 0 then t.emit (.divZero t.pc) else t.write tgt (aluDiv (t.read tgt) val)

/-- `div` (42_arithmetic R109 to R112): target ← floor of target ÷ source value. -/
def execDivWith (T : Tables) (tgt : Reg) (src : Source) (s : State) : Host.Outcome State Fault Refusal :=
  let t := s.issue T (.div tgt src)
  .next (t.divide tgt (t.resolve src)).advance

/-- `div` with the spec's default tables. -/
def execDiv (tgt : Reg) (src : Source) (s : State) : Host.Outcome State Fault Refusal :=
  execDivWith tables tgt src s

end Sys2Proof.Machine
end

