-- ==== Sys2Proof/Machine/Mov.lean ====
section
/-! DEFINITION. Data movement: `mov` (41_mov). -/

namespace Sys2Proof.Machine

open Sys2Proof

/-- `mov` (41_mov R100): target ← source value. The tables are a parameter (00_scope R7, R9). -/
def execMovWith (T : Tables) (tgt : Reg) (src : Source) (s : State) : Host.Outcome State Fault Refusal :=
  let t := s.issue T (.mov tgt src)
  .next (t.write tgt (t.resolve src)).advance

/-- `mov` with the spec's default tables. -/
def execMov (tgt : Reg) (src : Source) (s : State) : Host.Outcome State Fault Refusal :=
  execMovWith tables tgt src s

end Sys2Proof.Machine
end

