-- ==== Sys2Proof/Machine/Dispatch.lean ====
section
/-! DEFINITION. The meaning of each instruction, one arm per constructor (43_sequencing R127: the operation is
selected by the mnemonic alone). -/

namespace Sys2Proof.Machine

open Sys2Proof

def exec (i : Instr) (s : State) : Host.Outcome State Fault Refusal :=
  match i with
  | .mov tgt src => Sys2Proof.Machine.execMov tgt src s
  | .add tgt src => Sys2Proof.Machine.execAdd tgt src s
  | .sub tgt src => Sys2Proof.Machine.execSub tgt src s
  | .mul tgt src => Sys2Proof.Machine.execMul tgt src s
  | .div tgt src => Sys2Proof.Machine.execDiv tgt src s

end Sys2Proof.Machine
end

