-- ==== Sys2Proof/Machine/Sequencer.lean ====
section
/-! DEFINITION. The sequencer: one step of a run (43_sequencing R120), with the tables OPC and REGCODE a parameter
(00_scope R7, R9); and the machine at any tables. -/

namespace Sys2Proof.Machine

open Sys2Proof

/-- What runs a decoded instruction: `exec`, or `execWith T` for other tables. -/
abbrev Executor := Instr → State → Host.Outcome State Fault Refusal

/-- Decode a word and run its instruction; a `DecodeError` is fatal (43_sequencing R124, R127). -/
def State.runWord (s : State) (T : Tables) (run : Executor) (w : Word) : Host.Outcome State Fault Refusal :=
  match decodeWith T w with
  | .error d => .next (s.raise d.kind d.token)
  | .ok i => run i s

/-- One entry: the sentinel halts; otherwise encode, decode and run it. An encoder error is fatal (43_sequencing
R121, R123). -/
def State.runEntry (s : State) (T : Tables) (run : Executor) (e : Entry) : Host.Outcome State Fault Refusal :=
  if e.isSentinel then .next s.halt
  else
    match e.encode T with
    | .error d => .next (s.raise d.kind d.token)
    | .ok w => s.runWord T run w

/-- A step of a running machine: at the end of the list it halts without a fetch (43_sequencing R122). -/
def State.sequence (s : State) (T : Tables) (run : Executor) : Host.Outcome State Fault Refusal :=
  match s.fetch with
  | some e => s.runEntry T run e
  | none => if s.pc = s.prog.length then .next s.halt else .fault .fetchOutOfRange

/-- A step is taken only while the status is `Running` (10_state R27), of a program within the bound (00_scope
R7). -/
def State.stepRun (s : State) (T : Tables) (run : Executor) : Host.Outcome State Fault Refusal :=
  match s.status with
  | .halted => .fault .runHalted
  | .faulted _ _ _ => .fault .runFaulted
  | .running => if programWellFormed s.prog then s.sequence T run else .refused .programTooLong

/-! ## The machine at any tables (00_scope R7, R9) -/

/-- The meaning of each instruction with the tables `T`; `exec` is this with the defaults. -/
def execWith (T : Tables) : Executor
  | .mov tgt src, s => execMovWith T tgt src s
  | .add tgt src, s => execAddWith T tgt src s
  | .sub tgt src, s => execSubWith T tgt src s
  | .mul tgt src, s => execMulWith T tgt src s
  | .div tgt src, s => execDivWith T tgt src s

/-- One step with the tables `T`; `step` is this with the defaults. -/
def stepWith (T : Tables) (s : State) : Host.Outcome State Fault Refusal := s.stepRun T (execWith T)

/-- The machine with the tables `T`, for its runs. -/
def coreWith (T : Tables) : Host.Core :=
  { State := State, Fault := Fault, Refusal := Refusal, step := stepWith T, reset := State.reset }

end Sys2Proof.Machine
end

