-- ==== Sys2Proof/Machine/Step.lean ====
section
/-! DEFINITION. The step of the machine, and placing an instruction where the next step fetches. -/

namespace Sys2Proof.Machine

open Sys2Proof

/-- One step of the sequencer (43_sequencing R120), with the spec's default tables (00_scope R7). -/
def step (s : State) : Host.Outcome State Fault Refusal := s.stepRun tables exec

/-- `s` with the instruction whose bits are `w` (those from `nbits` on are 0) as the word-level program entry
(00_scope R14) at `pc`, and the status `Running`, so that the next step runs it (log entry 1). -/
def State.withFetchWord (s : State) (nbits w : Nat) : State := s.placeWord (BitVec.ofNat 32 (w % 2 ^ nbits))

end Sys2Proof.Machine
end

