-- ==== Sys2Proof/Machine/Unbounded.lean ====
section
/-! DEFINITION. The machine `U` of 42_arithmetic R113: it differs from ISA32 only in holding unbounded integers in the
registers. What one instruction does to its registers. -/

namespace Sys2Proof.Machine

open Sys2Proof

/-- `Resolve` of `U`. -/
def unboundedResolve (u : Vector Int 8) : Source → Int
  | .imm i => sext21 i
  | .reg r i => if r = 0 then sext21 i else u.get r

/-- The value an instruction of `U` writes to its target; none for a `div` whose divisor is 0. -/
def unboundedResult (i : Instr) (u : Vector Int 8) : Option Int :=
  let a := u.get i.target
  let val := unboundedResolve u i.source
  match i with
  | .mov _ _ => some val
  | .add _ _ => some (a + val)
  | .sub _ _ => some (a - val)
  | .mul _ _ => some (a * val)
  | .div _ _ => if val = 0 then none else some (Int.fdiv a val)

/-- The registers of `U` after an instruction. -/
def unboundedApply (i : Instr) (u : Vector Int 8) : Vector Int 8 :=
  match unboundedResult i u with
  | none => u
  | some v => u.set i.target.val v i.target.isLt

end Sys2Proof.Machine
end

