-- ==== Sys2Proof/Machine/Outputs.lean ====
section
/-! DEFINITION. The outputs of a run and the content of its report (00_scope R13; 43_sequencing R132 to R136,
R139). -/

namespace Sys2Proof.Machine

open Sys2Proof

/-- What a finished run delivers (00_scope R13). -/
inductive RunOutput where
  /-- A halted run: the trace, the two counters and the eight registers (43_sequencing R134). -/
  | final (trace : List Event) (cycles instret : Counter) (x : Vector Word 8)
  /-- A faulted run: the `Fault` record alone (43_sequencing R139). -/
  | fault (kind : ErrorKind) (token : Token) (pc : Nat)
  deriving DecidableEq, Repr

/-- The output in a state: nothing while the run goes on. -/
def State.output (s : State) : Option RunOutput :=
  match s.status with
  | .running => none
  | .halted => some (.final s.trace s.cycles s.instret s.x)
  | .faulted kind token pc => some (.fault kind token pc)

/-- `u32` (00_scope R16): the 32 bits of a register as an unsigned number. -/
def u32 (v : Word) : Nat := v.toNat

/-- One line of the register dump: the name, the signed value, the 32 binary digits (43_sequencing R135). -/
structure DumpLine where
  name : Text
  value : Int
  bits : Text
  deriving DecidableEq, Repr

/-- The line of one register. -/
def dumpLine (x : Vector Word 8) (r : Reg) : DumpLine := ⟨regSpelling r, (x.get r).toInt, bitsOf 32 (x.get r)⟩

/-- The register dump, `r0` to `r7` (43_sequencing R135). -/
def dump (x : Vector Word 8) : List DumpLine := allRegs.map (dumpLine x)

/-- The CPI in hundredths, `cycles / instret` rounded to two decimal places; none when no instruction was executed
(43_sequencing R136). On an exact tie the direction is free (log entry 5). -/
def cpiHundredths (cycles instret : Nat) : Option Nat :=
  if instret = 0 then none
  else
    let q := 100 * cycles / instret
    let r := 100 * cycles % instret
    if 2 * r < instret then some q
    else if instret < 2 * r then some (q + 1)
    else if Config.cpiTieUp cycles instret then some (q + 1)
    else some q

/-- The numeric cause codes of 60_exceptions R140 (decision D19). -/
def causeCode : ErrorKind → Nat
  | .malformedInstruction => 1
  | .unknownMnemonic => 2
  | .unknownRegister => 3
  | .encoding => 4
  | .decode => 5
  | .degenerateProgram => 6
  | .divisionByZero => 7

/-- Which error kinds end the run: all but the division by zero (60_exceptions R140, R144). -/
def fatal : ErrorKind → Bool
  | .divisionByZero => false
  | .malformedInstruction => true
  | .unknownMnemonic => true
  | .unknownRegister => true
  | .encoding => true
  | .decode => true
  | .degenerateProgram => true

end Sys2Proof.Machine
end

