-- ==== Sys2Proof/Safety.lean ====
section
/-! DEFINITION. The words claims are stated in: what every executed instruction does to the counters, which entries
run, where a run stops, and the invariant of a run. -/

namespace Sys2Proof.Machine

open Sys2Proof

/-- What is left to an instruction's own rule is its register and its events; this is the rest of an executed
instruction's effect: the counters, the index, and what stays (43_sequencing R120, R125, R128, R131). -/
structure Accounted (i : Instr) (s t : State) : Prop where
  pc : t.pc = s.pc + 1
  cycles : t.cycles = s.cycles + BitVec.ofNat 64 (cost i.mnemonic)
  instret : t.instret = s.instret + 1
  status : t.status = s.status
  prog : t.prog = s.prog

/-- Every register but `r` is unchanged. -/
def OnlyRegister (r : Reg) (s t : State) : Prop := ∀ q, q ≠ r → t.read q = s.read q

/-- Entry `k` of the program `p` is an instruction: it encodes to `w`, which decodes to `i`. -/
def RunsAt (p : List Entry) (k : Nat) (w : Word) (i : Instr) : Prop :=
  ∃ e, p[k]? = some e ∧ e.isSentinel = false ∧ e.encode tables = .ok w ∧ decode w = .ok i

/-- Index `k` is where a run halts: the end of the list, or a sentinel (43_sequencing R121, R122). -/
def HaltsAt (p : List Entry) (k : Nat) : Prop :=
  k = p.length ∨ ∃ e, p[k]? = some e ∧ e.isSentinel = true

/-- Entry `k` fails with the error `d`, in the encoder or in the decoder (43_sequencing R123, R124). -/
def FailsAt (p : List Entry) (k : Nat) (d : Diag) : Prop :=
  ∃ e, p[k]? = some e ∧ e.isSentinel = false ∧
    (e.encode tables = .error d ∨ ∃ w, e.encode tables = .ok w ∧ decode w = .error d)

/-- The literals and registers that survive encoding exactly (30_encoding R67): a register other than `r0`, or a
value of the immediate's signed range. -/
def ExactOperand : Op2 → Prop
  | .reg r => r ≠ 0
  | .imm v => -2 ^ 20 ≤ v ∧ v < 2 ^ 20

/-- A token of a text: some characters, none of them blank (30_encoding R70). -/
def IsToken (t : Text) : Prop := t ≠ [] ∧ ∀ c ∈ t, isBlank c = false

/-- A run of whitespace, maybe empty (30_encoding R70). -/
def IsBlankRun (t : Text) : Prop := ∀ c ∈ t, isBlank c = true

/-- The text whose tokens, each after a run of whitespace, are those of `ts`, with the run `z` at its end
(30_encoding R70). -/
def spacedText (ts : List (Text × Text)) (z : Text) : Text := ts.flatMap (fun gt => gt.1 ++ gt.2) ++ z

/-- The runs and tokens of a text: the runs are blank, only the first may be empty, and the tokens are tokens. -/
def IsSpacing (ts : List (Text × Text)) (z : Text) : Prop :=
  (∀ gt ∈ ts, IsBlankRun gt.1 ∧ IsToken gt.2) ∧ (∀ gt ∈ ts.tail, gt.1 ≠ []) ∧ IsBlankRun z

/-- The mnemonics as the spec writes them, in lower case (30_encoding R73). -/
def MnemonicsAreSpelt : Prop :=
  Mnemonic.mov.spelling = "mov".toList ∧ Mnemonic.add.spelling = "add".toList ∧
    Mnemonic.sub.spelling = "sub".toList ∧ Mnemonic.mul.spelling = "mul".toList ∧
    Mnemonic.div.spelling = "div".toList

/-- The names of the registers as the spec writes them (30_encoding R74). -/
def RegistersAreSpelt : Prop :=
  regSpelling 0 = "r0".toList ∧ regSpelling 1 = "r1".toList ∧ regSpelling 2 = "r2".toList ∧
    regSpelling 3 = "r3".toList ∧ regSpelling 4 = "r4".toList ∧ regSpelling 5 = "r5".toList ∧
    regSpelling 6 = "r6".toList ∧ regSpelling 7 = "r7".toList

/-- Some decimal digits, at least one (30_encoding R76). -/
def IsDigits (ds : Text) : Prop := ds ≠ [] ∧ ∀ c ∈ ds, 48 ≤ c.toNat ∧ c.toNat ≤ 57

/-- The number a string of digits spells in base ten, the most significant first (30_encoding R76). -/
def decimalValue (ds : Text) : Nat := ds.foldl (fun n c => 10 * n + (c.toNat - 48)) 0

/-- The number a string of binary digits spells, the most significant first. -/
def binaryValue (t : Text) : Nat := t.foldl (fun n c => 2 * n + (if c = '1' then 1 else 0)) 0

/-- The text is `n` binary digits spelling the number `v`. -/
def SpellsBits (t : Text) (n v : Nat) : Prop :=
  t.length = n ∧ (∀ c ∈ t, c = '0' ∨ c = '1') ∧ binaryValue t = v

/-- The cost an event reports: a row's cost; a diagnostic has none. -/
def eventCost : Event → Nat
  | .row _ _ _ c => c
  | .divZero _ => 0

/-- The index of a report row. -/
def rowIndex : Event → Option Nat
  | .row k _ _ _ => some k
  | .divZero _ => none

/-- The index an event carries. -/
def Event.index : Event → Nat
  | .row k _ _ _ => k
  | .divZero k => k

/-- The place of an event in a trace: the row of entry `k`, then its diagnostic, then the row of entry `k + 1`
(43_sequencing R126, R133). -/
def Event.place : Event → Nat
  | .row k _ _ _ => 2 * k
  | .divZero k => 2 * k + 1

/-- Some row of the trace reports an instruction with target `r` that wrote it: not a division that was skipped,
which the trace's diagnostic of the same index tells (10_state R22, 42_arithmetic R110). -/
def WritesReg (trace : List Event) (r : Reg) : Prop :=
  ∃ k text w c i, .row k text w c ∈ trace ∧ decode w = .ok i ∧ i.target = r ∧ .divZero k ∉ trace

/-- The event with its word left out, the one part that depends on the tables (92_eei_decisions D1, D2, D3). -/
def Event.withoutWord : Event → Event
  | .row k text _ c => .row k text 0 c
  | .divZero k => .divZero k

/-- How many rows of the trace report an instruction with the mnemonic `mn`. -/
def rowsOf (mn : Mnemonic) (trace : List Event) : Nat :=
  trace.countP fun ev =>
    match ev with
    | .row _ _ w _ =>
      match decode w with
      | .ok i => i.mnemonic == mn
      | .error _ => false
    | .divZero _ => false

/-- The event reports an entry of the program as it is: a row carries the entry's text, word and cost (43_sequencing
R132), a diagnostic the index of a `div` (R133). -/
def Event.reports (p : List Entry) (ev : Event) : Prop :=
  match ev with
  | .row k text w c =>
    ∃ e i, p[k]? = some e ∧ e.isSentinel = false ∧ e.encode tables = .ok w ∧ decode w = .ok i ∧
      text = e.reported ∧ c = cost i.mnemonic
  | .divZero k => ∃ w tgt src, RunsAt p k w (.div tgt src)

/-- The status is explained by the program: a halted run stands where it halts and has executed something; a
faulted run stands at the failing entry with its error, or at a halt with nothing executed (43_sequencing R120,
R137). -/
def StatusExplained (s : State) : Prop :=
  match s.status with
  | .running => True
  | .halted => 0 < s.pc ∧ HaltsAt s.prog s.pc
  | .faulted kind token k =>
    k = s.pc ∧ (FailsAt s.prog s.pc ⟨kind, token⟩ ∨
      (kind = .degenerateProgram ∧ token = .none ∧ s.pc = 0 ∧ HaltsAt s.prog 0))

/-- The invariant of a run. -/
structure Inv (s : State) : Prop where
  /-- The program is within the bound (00_scope R7). -/
  bounded : s.prog.length < Config.progLenBound
  /-- The range of `pc` (10_state R23). -/
  pc_le : s.pc ≤ s.prog.length
  /-- The instruction counter counts the entries executed (10_state R26). -/
  instret_eq : s.instret.toNat = s.pc
  /-- The cycle counter is the sum of the costs reported, and has not wrapped (10_state R25). -/
  cycles_eq : s.cycles.toNat = (s.trace.map eventCost).sum
  /-- One row per executed instruction, in program order (43_sequencing R129, R132). -/
  rows_eq : s.trace.filterMap rowIndex = List.range s.pc
  /-- Events stand in their places, each at most once: a diagnostic follows the row of its own entry. -/
  ordered : (s.trace.map Event.place).Pairwise (· < ·)
  /-- Only executed entries are reported. -/
  index_lt : ∀ ev ∈ s.trace, ev.index < s.pc
  /-- Every event reports the program as it is. -/
  reports : ∀ ev ∈ s.trace, ev.reports s.prog
  /-- A register that no instruction has written holds 0 (70_reset_and_hazards R162). -/
  unwritten : ∀ r, ¬ WritesReg s.trace r → s.read r = 0
  /-- The status is explained by the program. -/
  status : StatusExplained s

end Sys2Proof.Machine
end

