-- ==== Sys2Proof/Certificates/Slice0/Obligations.lean ====
section
/-! DEFINITION. The statements about ISA32, taken from the numbered rules of spec/. -/

open Sys2Proof Sys2Proof.Machine

/-! ## The word format, the decoder and the encoder -/

/-- 95_test_vectors 2.2 and 2.3: words written out with the spec's default codes (its decisions D1, D2, D3). -/
def Obligations.SpecWordsDecodeToTheirInstructions : Prop :=
  decode 0b00001010000000000000000000100010 = .ok (.mov 2 (.imm 34)) ∧
  decode 0b00010000111000000000000000000000 = .ok (.add 0 (.reg 7 0)) ∧
  decode 0b00011010011000000000000000000000 = .ok (.sub 2 (.reg 3 0)) ∧
  decode 0b00100011000100000000000000000000 = .ok (.mul 3 (.imm (-1048576))) ∧
  decode 0b00101001000111111111111111111111 = .ok (.div 1 (.imm (-1))) ∧
  decode 0b00001010011111111111111111111111 = .ok (.mov 2 (.reg 3 (-1))) ∧
  decode 0x00000000 = .error ⟨.decode, .word 0x00000000⟩ ∧
  decode 0x30000000 = .error ⟨.decode, .word 0x30000000⟩ ∧
  decode 0xFFFFFFFF = .error ⟨.decode, .word 0xFFFFFFFF⟩

/-- 40_encode_decode section 5: decoding the word of any well-formed instruction gives it back, for every valid choice
of the tables `OPC` and `REGCODE`. -/
def Obligations.DecodeRecoversEncodedInstruction : Prop :=
  ∀ T : Tables, T.Valid → ∀ i : Instr, WellFormed i = true → decodeWith T (encodeWith T i) = .ok i

/-- 40_encode_decode section 5: every legal word is the word of the instruction it decodes to, which is well formed. -/
def Obligations.EncodeRecoversDecodedWord : Prop :=
  ∀ T : Tables, T.Valid → ∀ (w : Word) (i : Instr), decodeWith T w = .ok i →
    encodeWith T i = w ∧ WellFormed i = true

/-- R87: the decoder is defined on every word; it returns the fields or raises `DecodeError`; only the opcode field can
be illegal. -/
def Obligations.OnlyTheOpcodeFieldCanBeIllegal : Prop :=
  ∀ T : Tables, T.Valid →
    (∀ w, (∃ i, decodeWith T w = .ok i) ∨ decodeWith T w = .error ⟨.decode, .word w⟩) ∧
    (∀ w, (∃ i, decodeWith T w = .ok i) ↔ ∃ mn, T.opc mn = opcodeField w) ∧
    (∀ mn t s f, ∃ i, decodeWith T (wordOfFields (T.opc mn) t s f) = .ok i ∧ i.mnemonic = mn ∧
      T.regcode i.target = t ∧
      (s = 0 → i.source = .imm f) ∧ (s ≠ 0 → ∃ r, T.regcode r = s ∧ i.source = .reg r f))

/-- 30_encoding section 2 (its round-trip rule, whose second half is the spec's own inference; the refusal below
`-2^21` is its decision D6). -/
def Obligations.ImmediateFieldRoundTrip : Prop :=
  (∀ v : Int, -2 ^ 20 ≤ v → v < 2 ^ 20 → ∃ f, packImm v = some f ∧ sext21 f = v) ∧
  (∀ v : Int, -2 ^ 21 ≤ v → ¬ (-2 ^ 20 ≤ v ∧ v < 2 ^ 20) →
    ∃ f, ∃ k : Int, packImm v = some f ∧ k ≠ 0 ∧ sext21 f = v + k * 2 ^ 21) ∧
  (∀ v : Int, v < -2 ^ 21 → packImm v = none)

/-- R52, R53, R54, R55, R56, R81, R82: what each field of an encoded instruction holds. That the immediate field is
the value modulo `2^21` for every value from `-2^21` on is the spec's own inference from the two clauses of R56, and
the bound is its decision D6 (log entry 6). -/
def Obligations.EncodedFieldsHoldTheOperands : Prop :=
  ∀ T : Tables, T.Valid → ∀ (mn : Mnemonic) (tgt : Reg),
    (∀ r, ∃ w, pack T mn tgt (.reg r) = some w ∧ opcodeField w = T.opc mn ∧ targetField w = T.regcode tgt ∧
      sourceField w = T.regcode r ∧ immField w = 0) ∧
    (∀ v : Int, -2 ^ 21 ≤ v → ∃ w, pack T mn tgt (.imm v) = some w ∧ opcodeField w = T.opc mn ∧
      targetField w = T.regcode tgt ∧ sourceField w = 0 ∧ ((immField w).toNat : Int) = v % 2 ^ 21) ∧
    pack T mn tgt (.reg 0) = pack T mn tgt (.imm 0) ∧ T.regcode 0 = 0 ∧
    (∀ c : BitVec 3, ∃ r, T.regcode r = c)

/-- 40_encode_decode section 5: what the decoder makes of a word the encoder produced. -/
def Obligations.DecoderReadsBackTheTriple : Prop :=
  ∀ T : Tables, T.Valid → ∀ (mn : Mnemonic) (tgt : Reg),
    (∀ r, r ≠ 0 → ∃ w, pack T mn tgt (.reg r) = some w ∧ decodeWith T w = .ok (Instr.make mn tgt (.reg r 0))) ∧
    (∃ w, pack T mn tgt (.reg 0) = some w ∧ decodeWith T w = .ok (Instr.make mn tgt (.imm 0))) ∧
    (∀ v : Int, -2 ^ 21 ≤ v → ∃ w f, pack T mn tgt (.imm v) = some w ∧
      decodeWith T w = .ok (Instr.make mn tgt (.imm f)) ∧ sext21 f % 2 ^ 21 = v % 2 ^ 21 ∧
      (-2 ^ 20 ≤ v ∧ v < 2 ^ 20 → sext21 f = v))

/-- 30_encoding section 4: the canonical words are exactly those the encoder can produce. -/
def Obligations.CanonicalWordsAreTheEncoders : Prop :=
  ∀ T : Tables, T.Valid → ∀ w, canonicalWord T w = true ↔ ∃ mn tgt op2, pack T mn tgt op2 = some w

/-- 40_encode_decode section 5: re-encoding a decoded word gives the word with the immediate field cleared when the
source is a register, and the word itself when it is canonical; the two have the same operands in every state. -/
def Obligations.ReencodingADecodedWord : Prop :=
  ∀ T : Tables, T.Valid → ∀ (w : Word) (i : Instr), decodeWith T w = .ok i →
    ∃ w' j, pack T i.mnemonic i.target i.source.op2 = some w' ∧ (canonicalWord T w = true → w' = w) ∧
      (canonicalWord T w = false →
        w' = wordOfFields (opcodeField w) (targetField w) (sourceField w) 0) ∧
      decodeWith T w' = .ok j ∧ j.mnemonic = i.mnemonic ∧ j.target = i.target ∧
      ∀ s : State, s.resolve j.source = s.resolve i.source

/-- 30_encoding section 4: on registers other than `r0` and literals in range the encoder is injective. -/
def Obligations.EncoderInjectiveOnExactOperands : Prop :=
  ∀ T : Tables, T.Valid → ∀ (mn mn' : Mnemonic) (tgt tgt' : Reg) (a b : Op2), ExactOperand a → ExactOperand b →
    pack T mn tgt a = pack T mn' tgt' b → mn = mn' ∧ tgt = tgt' ∧ a = b

/-- R63: a word with a non-zero source field and a non-zero immediate field is legal, the encoder never produces it,
and the immediate field is ignored. -/
def Obligations.UnusedImmediateFieldIsIgnored : Prop :=
  ∀ T : Tables, T.Valid →
    (∀ mn t s f, s ≠ 0 → ∃ r, r ≠ 0 ∧ T.regcode r = s ∧
      decodeWith T (wordOfFields (T.opc mn) t s f) = .ok (Instr.make mn (regnum T t) (.reg r f))) ∧
    (∀ mn tgt op2 w, pack T mn tgt op2 = some w → sourceField w ≠ 0 → immField w = 0) ∧
    (∀ mn tgt r f g, r ≠ 0 → ∀ s : State, ∃ t u : State,
      exec (Instr.make mn tgt (.reg r f)) s = .next t ∧ exec (Instr.make mn tgt (.reg r g)) s = .next u ∧
      t.x = u.x ∧ t.pc = u.pc ∧ t.cycles = u.cycles ∧ t.instret = u.instret ∧ t.status = u.status ∧
      t.prog = u.prog ∧ s.resolve (.reg r f) = s.read r)

/-! ## The encoder's parse stage -/

/-- 30_encoding section 6 (with the spec's decision D8): tokens with whitespace between them, and any before and after,
are the tokens of the text, however many they are; and every text is of this form. -/
def Obligations.TokensAreTheRunsBetweenBlanks : Prop :=
  (∀ (ts : List (Text × Text)) (z : Text), IsSpacing ts z → tokens (spacedText ts z) = ts.map Prod.snd) ∧
  (∀ t : Text, ∃ ts z, IsSpacing ts z ∧ t = spacedText ts z) ∧
  (∀ p a q b r c z : Text, IsToken a → IsToken b → IsToken c → IsBlankRun p → IsBlankRun q → IsBlankRun r →
    IsBlankRun z → q ≠ [] → r ≠ [] → tokens (p ++ a ++ q ++ b ++ r ++ c ++ z) = [a, b, c])

/-- 30_encoding section 6 (with the spec's decision D9): a decimal literal is an optional sign and one or more digits,
read in base ten; leading zeros are allowed; nothing else is one. -/
def Obligations.DecimalLiteralsReadInBaseTen : Prop :=
  (∀ ds : Text, IsDigits ds → literalOf ds = some (decimalValue ds : Int) ∧
    literalOf ('+' :: ds) = some (decimalValue ds : Int) ∧ literalOf ('-' :: ds) = some (-(decimalValue ds : Int))) ∧
  (∀ n : Nat, IsDigits (Nat.toDigits 10 n) ∧ decimalValue (Nat.toDigits 10 n) = n) ∧
  (∀ (k : Nat) (ds : Text), decimalValue (List.replicate k '0' ++ ds) = decimalValue ds) ∧
  (∀ t v, literalOf t = some v → ∃ ds : Text, IsDigits ds ∧ (t = ds ∨ t = '-' :: ds ∨ t = '+' :: ds))

/-- 30_encoding section 6 and 40_encode_decode section 1 (with the spec's decisions D6, D7, D8, D21): which error the
encoder reports for a text, in the order of its checks; and which characters the names of R73 and R74 are. -/
def Obligations.EncoderReportsTheFirstFailingCheck : Prop :=
  MnemonicsAreSpelt ∧ RegistersAreSpelt ∧ ∀ (T : Tables) (t : Text),
    ((tokens t).length ≠ 3 → encodeText T t = .error ⟨.malformedInstruction, .text t⟩) ∧
    (∀ m a b, tokens t = [m, a, b] →
      ((∀ mn : Mnemonic, mn.spelling ≠ m) → encodeText T t = .error ⟨.unknownMnemonic, .text m⟩) ∧
      (∀ mn : Mnemonic, mn.spelling = m →
        ((∀ r, regSpelling r ≠ a) → encodeText T t = .error ⟨.unknownRegister, .text a⟩) ∧
        (∀ tgt, regSpelling tgt = a →
          ((∀ r, regSpelling r ≠ b) → literalOf b = none →
            encodeText T t = .error ⟨.unknownRegister, .text b⟩) ∧
          (∀ v : Int, literalOf b = some v → v < -2 ^ 21 →
            encodeText T t = .error ⟨.encoding, .text b⟩))))

/-- 30_encoding section 6 and 40_encode_decode section 1: a text whose tokens pass the checks encodes as its triple; and which
characters the names of R73 and R74 are. -/
def Obligations.TextEncodesAsItsTriple : Prop :=
  MnemonicsAreSpelt ∧ RegistersAreSpelt ∧ ∀ (T : Tables) (t : Text) (mn : Mnemonic) (tgt : Reg) (b : Text),
    tokens t = [mn.spelling, regSpelling tgt, b] →
    (∀ r, b = regSpelling r → ∃ w, pack T mn tgt (.reg r) = some w ∧ encodeText T t = .ok w) ∧
    (∀ v : Int, literalOf b = some v → -2 ^ 21 ≤ v →
      ∃ w, pack T mn tgt (.imm v) = some w ∧ encodeText T t = .ok w)

/-- 92_eei_decisions, its note on D1, D2 and D3: for an entry that is not a word, the error or the instruction does not
depend on the choice of the tables `OPC` and `REGCODE`. -/
def Obligations.InstructionsDoNotDependOnTheTables : Prop :=
  ∀ T : Tables, T.Valid → ∀ e : Entry, (∀ w, e ≠ .word w) →
    (∀ d, e.encode T = .error d ↔ e.encode tables = .error d) ∧
    (∀ w, e.encode T = .ok w → ∃ w' i, e.encode tables = .ok w' ∧ decodeWith T w = .ok i ∧ decode w' = .ok i)

/-! ## Operands and results -/

/-- 40_encode_decode section 3: the source value is the immediate, sign extended, or the named register's value, and
never the value of `r0`. -/
def Obligations.SourceValueIsImmediateOrRegister : Prop :=
  ∀ s : State,
    (∀ f, (s.resolve (.imm f)).toInt = f.toInt ∧ -2 ^ 20 ≤ f.toInt ∧ f.toInt < 2 ^ 20) ∧
    (∀ r f, r ≠ 0 → s.resolve (.reg r f) = s.read r) ∧
    (∀ src v, (s.write 0 v).resolve src = s.resolve src)

/-- 41_mov: `mov` completes in every state with the source value in its target. -/
def Obligations.MovCopiesTheSourceValue : Prop :=
  ∀ (tgt : Reg) (src : Source) (s : State), ∃ t, exec (.mov tgt src) s = .next t ∧
    t.read tgt = s.resolve src ∧ OnlyRegister tgt s t ∧ Accounted (.mov tgt src) s t ∧
    t.trace = s.trace ++ [s.rowOf (.mov tgt src)]

/-- 42_arithmetic section 1 (wrapping is the spec's decision D4): `add` completes in every state with the sum in its
target. -/
def Obligations.AddWritesTheWrappedSum : Prop :=
  ∀ (tgt : Reg) (src : Source) (s : State), ∃ t, exec (.add tgt src) s = .next t ∧
    t.read tgt = wrap32 ((s.read tgt).toInt + (s.resolve src).toInt) ∧ OnlyRegister tgt s t ∧
    Accounted (.add tgt src) s t ∧ t.trace = s.trace ++ [s.rowOf (.add tgt src)]

/-- 42_arithmetic section 1 (wrapping is the spec's decision D4): `sub` completes in every state with the difference
in its target, the target being the minuend. -/
def Obligations.SubWritesTheWrappedDifference : Prop :=
  ∀ (tgt : Reg) (src : Source) (s : State), ∃ t, exec (.sub tgt src) s = .next t ∧
    t.read tgt = wrap32 ((s.read tgt).toInt - (s.resolve src).toInt) ∧ OnlyRegister tgt s t ∧
    Accounted (.sub tgt src) s t ∧ t.trace = s.trace ++ [s.rowOf (.sub tgt src)]

/-- 42_arithmetic section 1 (wrapping is the spec's decision D4): `mul` completes in every state with the low 32 bits
of the product in its target. -/
def Obligations.MulWritesTheWrappedProduct : Prop :=
  ∀ (tgt : Reg) (src : Source) (s : State), ∃ t, exec (.mul tgt src) s = .next t ∧
    t.read tgt = wrap32 ((s.read tgt).toInt * (s.resolve src).toInt) ∧ OnlyRegister tgt s t ∧
    Accounted (.mul tgt src) s t ∧ t.trace = s.trace ++ [s.rowOf (.mul tgt src)]

/-- 42_arithmetic section 1 (wrapping is the spec's decision D4): `div` with a divisor other than 0 completes with the
floor of the exact quotient in its target. -/
def Obligations.DivWritesTheWrappedFloor : Prop :=
  ∀ (tgt : Reg) (src : Source) (s : State), s.resolve src ≠ 0 → ∃ t, exec (.div tgt src) s = .next t ∧
    t.read tgt = wrap32 ⌊((s.read tgt).toInt : ℚ) / ((s.resolve src).toInt : ℚ)⌋ ∧ OnlyRegister tgt s t ∧
    Accounted (.div tgt src) s t ∧ t.trace = s.trace ++ [s.rowOf (.div tgt src)]

/-- R110, R144: a division by zero keeps every register, costs 6 cycles, is counted, emits its row and then
`DivZero(pc)`, advances, and leaves the run going; for both operand forms and any dividend. -/
def Obligations.DivisionByZeroSkipsTheWrite : Prop :=
  (∀ (tgt : Reg) (src : Source) (s : State), s.resolve src = 0 → ∃ t, exec (.div tgt src) s = .next t ∧
    t.x = s.x ∧ t.cycles = s.cycles + 6 ∧ t.instret = s.instret + 1 ∧ t.pc = s.pc + 1 ∧ t.status = s.status ∧
    t.prog = s.prog ∧ t.trace = s.trace ++ [s.rowOf (.div tgt src), .divZero s.pc]) ∧
  (∀ s : State, s.resolve (.imm 0) = 0 ∧ ∀ r f, r ≠ 0 → s.read r = 0 → s.resolve (.reg r f) = 0) ∧
  (∀ (i : Instr) (s t : State) (k : Nat), exec i s = .next t → .divZero k ∈ t.trace → .divZero k ∉ s.trace →
    k = s.pc ∧ i.mnemonic = .div ∧ s.resolve i.source = 0)

/-- R112: the quotient is the floor; the sign of the remainder; when it differs from the truncated quotient; the
table of the rule. -/
def Obligations.QuotientRoundsTowardNegativeInfinity : Prop :=
  (∀ a b : Word, b ≠ 0 → ¬ (a.toInt = -2 ^ 31 ∧ b.toInt = -1) →
    let q := (aluDiv a b).toInt
    let r := a.toInt - q * b.toInt
    (r = 0 ∨ r.sign = b.toInt.sign) ∧ |r| < |b.toInt| ∧
    (r ≠ 0 ∧ a.toInt.sign ≠ b.toInt.sign → q = a.toInt.tdiv b.toInt - 1) ∧
    (¬ (r ≠ 0 ∧ a.toInt.sign ≠ b.toInt.sign) → q = a.toInt.tdiv b.toInt)) ∧
  ((aluDiv 7 2).toInt = 3 ∧ (aluDiv (-7) 2).toInt = -4 ∧ (aluDiv 7 (-2)).toInt = -4 ∧
    (aluDiv (-7) (-2)).toInt = 3 ∧ (aluDiv (-1) 2).toInt = -1 ∧ (aluDiv 1 (-2)).toInt = -1 ∧
    (aluDiv 0 5).toInt = 0 ∧ (aluDiv (-90) 5).toInt = -18) ∧
  (∀ (tgt : Reg) (src : Source) (s t : State), s.resolve src = 0 → exec (.div tgt src) s = .next t → t.x = s.x)

/-- 42_arithmetic section 1, the spec's inference from its decision D4: the quotient leaves the signed range in one
case only, and there the target keeps its value without an event. -/
def Obligations.DivisionOverflowKeepsTheTarget : Prop :=
  (∀ a b : Word, b ≠ 0 →
    (¬ (-2 ^ 31 ≤ ⌊(a.toInt : ℚ) / (b.toInt : ℚ)⌋ ∧ ⌊(a.toInt : ℚ) / (b.toInt : ℚ)⌋ < 2 ^ 31) ↔
      a.toInt = -2 ^ 31 ∧ b.toInt = -1)) ∧
  (∀ (tgt : Reg) (src : Source) (s : State), (s.read tgt).toInt = -2 ^ 31 → (s.resolve src).toInt = -1 →
    ∃ t, exec (.div tgt src) s = .next t ∧ t.x = s.x ∧ t.status = s.status ∧
      t.trace = s.trace ++ [s.rowOf (.div tgt src)])

/-- 42_arithmetic section 1 (the spec's decision D4): sums, differences and products are those of the operands modulo
`2^32`, whether these are read as signed or as unsigned. -/
def Obligations.ResultsAreModuloTwoToThe32 : Prop :=
  ∀ a b : Word,
    (aluAdd a b).toInt % 2 ^ 32 = (a.toInt + b.toInt) % 2 ^ 32 ∧
    (aluSub a b).toInt % 2 ^ 32 = (a.toInt - b.toInt) % 2 ^ 32 ∧
    (aluMul a b).toInt % 2 ^ 32 = (a.toInt * b.toInt) % 2 ^ 32 ∧
    (aluAdd a b).toNat = (a.toNat + b.toNat) % 2 ^ 32 ∧
    ((aluSub a b).toNat : Int) = ((a.toNat : Int) - b.toNat) % 2 ^ 32 ∧
    (aluMul a b).toNat = a.toNat * b.toNat % 2 ^ 32

/-- 70_reset_and_hazards section 3: with the same register as source and target every read comes before the write. -/
def Obligations.SameRegisterReadsBeforeTheWrite : Prop :=
  ∀ (r : Reg) (f : ImmField) (s : State), r ≠ 0 →
    (∃ t, exec (.mov r (.reg r f)) s = .next t ∧ t.x = s.x) ∧
    (∃ t, exec (.add r (.reg r f)) s = .next t ∧ t.read r = wrap32 (2 * (s.read r).toInt)) ∧
    (∃ t, exec (.sub r (.reg r f)) s = .next t ∧ t.read r = 0) ∧
    (∃ t, exec (.mul r (.reg r f)) s = .next t ∧ t.read r = wrap32 ((s.read r).toInt ^ 2)) ∧
    (s.read r ≠ 0 → ∃ t, exec (.div r (.reg r f)) s = .next t ∧ t.read r = 1) ∧
    (s.read r = 0 → ∃ t, exec (.div r (.reg r f)) s = .next t ∧ t.x = s.x ∧ .divZero s.pc ∈ t.trace)

/-! ## Frames -/

/-- R22: which instruction touches which register. -/
def Obligations.InstructionsTouchOnlyTheirRegisters : Prop :=
  (∀ (i : Instr) (s t : State), exec i s = .next t → OnlyRegister i.target s t ∧
    (i.mnemonic = .div → s.resolve i.source = 0 → t.x = s.x)) ∧
  (∀ (i : Instr) (s s' t t' : State), exec i s = .next t → exec i s' = .next t' →
    (∀ r f, i.source = .reg r f → r ≠ 0 → s.read r = s'.read r) →
    (i.mnemonic ≠ .mov → s.read i.target = s'.read i.target) → t.read i.target = t'.read i.target) ∧
  (∀ (s : State) (v : Vector Word 8), (State.mk v s.pc s.cycles s.instret s.status s.prog s.trace).halt =
    State.mk v s.pc s.cycles s.instret s.halt.status s.prog s.trace) ∧
  (∀ (s : State) (v : Vector Word 8), s.status ≠ .halted →
    State.output (State.mk v s.pc s.cycles s.instret s.status s.prog s.trace) = s.output)

/-- R21: no register is hardwired; `r0` is written and read as a target like any other; as a source it is the
immediate 0, whatever it holds. -/
def Obligations.RegisterZeroIsOrdinaryButNeverASource : Prop :=
  (∀ (s : State) (r : Reg) (v : Word), (s.write r v).read r = v) ∧
  (∀ (src : Source) (s : State), ∃ t₁ t₂ t₃ t₄ t₅ : State,
    exec (.mov 0 src) s = .next t₁ ∧ t₁.read 0 = s.resolve src ∧
    exec (.add 0 src) s = .next t₂ ∧ t₂.read 0 = aluAdd (s.read 0) (s.resolve src) ∧
    exec (.sub 0 src) s = .next t₃ ∧ t₃.read 0 = aluSub (s.read 0) (s.resolve src) ∧
    exec (.mul 0 src) s = .next t₄ ∧ t₄.read 0 = aluMul (s.read 0) (s.resolve src) ∧
    exec (.div 0 src) s = .next t₅ ∧ (s.resolve src ≠ 0 → t₅.read 0 = aluDiv (s.read 0) (s.resolve src))) ∧
  (∀ (mn : Mnemonic) (tgt : Reg), ∃ w i, pack tables mn tgt (.reg 0) = some w ∧ decode w = .ok i ∧
    i.mnemonic = mn ∧ i.target = tgt ∧ ∀ s : State, s.resolve i.source = 0) ∧
  (∀ (s : State) (v : Word) (src : Source), (s.write 0 v).resolve src = s.resolve src)

/-- R24, R128: every executed instruction advances `pc` by one, a skipped division too; no instruction reads it; the
sentinel and a fatal error leave it. -/
def Obligations.EveryInstructionAdvancesThePcByOne : Prop :=
  (∀ (i : Instr) (s : State), ∃ t, exec i s = .next t ∧ t.pc = s.pc + 1) ∧
  (∀ (i : Instr) (s t : State) (k : Nat), exec i s = .next t →
    ∃ u, exec i (State.mk s.x k s.cycles s.instret s.status s.prog s.trace) = .next u ∧ u.x = t.x ∧
      u.cycles = t.cycles ∧ u.instret = t.instret ∧ u.status = t.status) ∧
  (∀ s t : State, step s = .next t → (t.status = .running → t.pc = s.pc + 1) ∧
    (t.status ≠ .running → t.pc = s.pc)) ∧
  (∀ s : State, s.status = .running → programWellFormed s.prog = true → HaltsAt s.prog s.pc →
    ∃ t, step s = .next t ∧ t.pc = s.pc) ∧
  (∀ (s : State) (d : Diag), s.status = .running → programWellFormed s.prog = true → FailsAt s.prog s.pc d →
    ∃ t, step s = .next t ∧ t.pc = s.pc)

/-- R91, R125: the cost is fixed by the opcode alone, whatever the operands, and a division by zero has paid it. -/
def Obligations.CyclesGrowByTheOpcodesCost : Prop :=
  ∀ (tgt : Reg) (src : Source) (s : State),
    (∃ t, exec (.mov tgt src) s = .next t ∧ t.cycles = s.cycles + 1) ∧
    (∃ t, exec (.add tgt src) s = .next t ∧ t.cycles = s.cycles + 1) ∧
    (∃ t, exec (.sub tgt src) s = .next t ∧ t.cycles = s.cycles + 1) ∧
    (∃ t, exec (.mul tgt src) s = .next t ∧ t.cycles = s.cycles + 4) ∧
    (∃ t, exec (.div tgt src) s = .next t ∧ t.cycles = s.cycles + 6)

/-! ## The step -/

/-- 43_sequencing section 1: when the entry at `pc` encodes to a word that decodes to an instruction, a step of a
running machine is `exec` of that instruction, and nothing around it. -/
def Obligations.StepRunsTheDecodedInstruction : Prop :=
  ∀ (s : State) (w : Word) (i : Instr), s.status = .running → programWellFormed s.prog = true →
    RunsAt s.prog s.pc w i → step s = exec i s

/-- R126, R132, R133 (that the row of a symbolic entry carries the triple as its text is the model's choice, log entry
2): an executed instruction emits its report row, with its index, its text as supplied, its word and its
cost; a division by zero emits `DivZero(pc)` once, after the row. -/
def Obligations.ExecutedInstructionsAreReported : Prop :=
  ∀ (s : State) (e : Entry) (w : Word) (i : Instr), s.status = .running → programWellFormed s.prog = true →
    s.prog[s.pc]? = some e → e.isSentinel = false → e.encode tables = .ok w → decode w = .ok i →
    ∃ t, step s = .next t ∧
      (i.mnemonic = .div ∧ s.resolve i.source = 0 →
        t.trace = s.trace ++ [.row s.pc e.reported w (cost i.mnemonic), .divZero s.pc]) ∧
      (¬ (i.mnemonic = .div ∧ s.resolve i.source = 0) →
        t.trace = s.trace ++ [.row s.pc e.reported w (cost i.mnemonic)]) ∧
      ((∃ v, e = .word v) → e.reported = none) ∧ ((∀ v, e ≠ .word v) → e.reported = some e)

/-- R121, R122, R72 (the exact match is the spec's decision D10, log entry 6): which entries are the sentinel; at it,
and at the end of the list, the run stops, and no register, counter, `pc` or trace changes. -/
def Obligations.SentinelAndEndOfListHalt : Prop :=
  (Entry.sentinel.isSentinel = true ∧
    (∀ t : Text, (Entry.text t).isSentinel = true ↔ tokens t = ["end".toList, "0".toList, "0".toList]) ∧
    (∀ mn tgt op2, (Entry.triple mn tgt op2).isSentinel = false) ∧ (∀ w, (Entry.word w).isSentinel = false) ∧
    (Entry.text "end 0 0".toList).isSentinel = true ∧ (Entry.text "end 00 0".toList).isSentinel = false ∧
    (Entry.text "end".toList).isSentinel = false) ∧
  (∀ s : State, s.status = .running → programWellFormed s.prog = true → HaltsAt s.prog s.pc →
    ∃ t, step s = .next t ∧ t.x = s.x ∧ t.pc = s.pc ∧ t.cycles = s.cycles ∧ t.instret = s.instret ∧
      t.trace = s.trace ∧ t.prog = s.prog ∧ t.status ≠ .running ∧ (s.instret ≠ 0 → t.status = .halted)) ∧
  (∀ s : State, s.pc = s.prog.length → s.fetch = none) ∧
  (∃ t, step (State.load []) = .next t ∧ t.status = .faulted .degenerateProgram .none 0)

/-- R137, R145: a run that halts with nothing executed is a degenerate program: a fault, no `final`, and every
register 0. -/
def Obligations.DegenerateProgramsFault : Prop :=
  (∀ s : State, Inv s → s.status = .running → HaltsAt s.prog s.pc → s.instret = 0 →
    ∃ t, step s = .next t ∧ t.status = .faulted .degenerateProgram .none s.pc ∧
      t.output = some (.fault .degenerateProgram .none s.pc) ∧ ∀ r, t.read r = 0) ∧
  (∀ p : List Entry, programWellFormed p = true → HaltsAt p 0 →
    ∃ t, step (State.load p) = .next t ∧ t.status = .faulted .degenerateProgram .none 0) ∧
  (∀ (i : Instr) (s t : State), exec i s = .next t → t.status = s.status)

/-- R123, R124: an error of the encoder or the decoder is fatal; nothing but the status changes; a word-level entry
skips the encoder; only a word-level entry can raise `DecodeError`. -/
def Obligations.EncoderAndDecoderErrorsAreFatal : Prop :=
  (∀ (s : State) (d : Diag), s.status = .running → programWellFormed s.prog = true → FailsAt s.prog s.pc d →
    step s = .next (State.mk s.x s.pc s.cycles s.instret (.faulted d.kind d.token s.pc) s.prog s.trace)) ∧
  (∀ w : Word, (Entry.word w).isSentinel = false ∧ (Entry.word w).encode tables = .ok w) ∧
  (∀ (e : Entry) (w : Word), (∀ v, e ≠ .word v) → e.encode tables = .ok w → ∃ i, decode w = .ok i)

/-- R27, R151: there is no return from a fault, and no step is taken from it or from a halted run; only `reset` leaves
it, and begins a new run. That the step then answers a fault, and which, is the model's choice (log entry 4). -/
def Obligations.NoStepLeavesAFaultedRun : Prop :=
  (∀ (s : State) (kind : ErrorKind) (token : Token) (k : Nat), s.status = .faulted kind token k →
    step s = .fault .runFaulted) ∧
  (∀ s : State, s.status = .halted → step s = .fault .runHalted) ∧
  (∀ (i : Instr) (s t : State), exec i s = .next t → t.status = s.status) ∧
  (∀ s : State, s.resetEvent = State.load s.prog ∧ s.resetEvent.status = .running)

/-- 43_sequencing section 1: a step does all of an instruction, its operation and its row among it (`exec`, lines 4 to 7
of R120), or changes nothing but the status. -/
def Obligations.StepIsAllOrNothing : Prop :=
  ∀ s t : State, step s = .next t →
    (∃ w i, RunsAt s.prog s.pc w i ∧ exec i s = .next t ∧ Accounted i s t ∧ OnlyRegister i.target s t ∧
      t.status = .running) ∨
    (t = State.mk s.x s.pc s.cycles s.instret t.status s.prog s.trace ∧ t.status ≠ .running)

/-- 20_memory sections 2 and 3, 00_scope section 5: no step changes the program, and the trace only grows. -/
def Obligations.ProgramIsImmutableAndTraceOnlyGrows : Prop :=
  ∀ s t : State, step s = .next t → t.prog = s.prog ∧ ∃ evs, t.trace = s.trace ++ evs

/-- 60_exceptions section 6, 00_scope section 6: no step reads the trace. -/
def Obligations.NoStepReadsTheTrace : Prop :=
  ∀ (s t : State) (tr : List Event), step s = .next t → ∃ evs, t.trace = s.trace ++ evs ∧
    step (State.mk s.x s.pc s.cycles s.instret s.status s.prog tr) =
      .next (State.mk t.x t.pc t.cycles t.instret t.status t.prog (tr ++ evs))

/-- 43_sequencing section 2, 40_encode_decode section 4: registers influence neither the control flow nor the
counters nor the errors: two states that differ in registers and trace only step alike. -/
def Obligations.ControlAndTimingIgnoreTheRegisters : Prop :=
  ∀ (s t : State) (x : Vector Word 8) (tr : List Event), step s = .next t →
    ∃ u, step (State.mk x s.pc s.cycles s.instret s.status s.prog tr) = .next u ∧
      u.pc = t.pc ∧ u.cycles = t.cycles ∧ u.instret = t.instret ∧ u.status = t.status ∧ u.prog = t.prog

/-! ## Runs -/

/-- 10_state section 6, 70_reset_and_hazards section 1: what reset leaves (the values of `pc` and the counters are the
spec's decisions D11, D12, D13; the empty program of `State.reset` is the model's choice, log entry 1). -/
def Obligations.ResetLeavesTheResetValues : Prop :=
  ∀ p : List Entry,
    (∀ r, (State.load p).read r = 0) ∧ (State.load p).pc = 0 ∧ (State.load p).cycles = 0 ∧
    (State.load p).instret = 0 ∧ (State.load p).status = .running ∧ (State.load p).trace = [] ∧
    (State.load p).prog = p ∧ State.reset = State.load [] ∧
    ∀ s : State, s.prog = p → s.resetEvent = State.load p

/-- 10_state sections 2 and 3, 43_sequencing sections 1 to 5: every step keeps the invariant of a run. -/
def Obligations.EveryStepKeepsTheRunInvariant : Prop :=
  ∀ s t : State, Inv s → step s = .next t → Inv t

/-- 10_state section 6: the invariant holds after reset, and at the start of a run of any program within the bound. -/
def Obligations.RunInvariantHoldsAtReset : Prop :=
  Inv State.reset ∧ ∀ p : List Entry, programWellFormed p = true → Inv (State.load p)

/-- R162: a register that no instruction has written holds 0, and reading it is legal and returns 0. A division by zero
has its target but does not write it (R22, R110). -/
def Obligations.UnwrittenRegistersReadZero : Prop :=
  ∀ (k : Nat) (p : List Entry) (s : State), programWellFormed p = true →
    Host.Core.run Sys2Proof.core k (State.load p) = .next s →
    ∀ r, (∀ j w i, j < s.pc → RunsAt p j w i → i.target = r → i.mnemonic = .div ∧ .divZero j ∈ s.trace) →
      s.read r = 0

/-- 20_memory section 3: in a run a register holds the value left by the latest entry in program order that wrote it; a
division by zero after it has its target but does not write it. -/
def Obligations.RegistersHoldTheLatestWriteInProgramOrder : Prop :=
  ∀ (p : List Entry) (k j : Nat) (s : State) (r : Reg), programWellFormed p = true →
    Host.Core.run Sys2Proof.core k (State.load p) = .next s → j < s.pc →
    (∀ m w i, j < m → m < s.pc → RunsAt p m w i → i.target = r → i.mnemonic = .div ∧ .divZero m ∈ s.trace) →
    ∃ u, Host.Core.run Sys2Proof.core (j + 1) (State.load p) = .next u ∧ u.pc = j + 1 ∧ s.read r = u.read r

/-- 70_reset_and_hazards section 4: `cycles` is the weighted count of the instructions reported, and lies between
`instret` and `6 * instret`. -/
def Obligations.CyclesAreTheWeightedInstructionCounts : Prop :=
  ∀ s : State, Inv s →
    s.cycles.toNat = rowsOf .mov s.trace + rowsOf .add s.trace + rowsOf .sub s.trace + 4 * rowsOf .mul s.trace
      + 6 * rowsOf .div s.trace ∧
    s.instret.toNat = rowsOf .mov s.trace + rowsOf .add s.trace + rowsOf .sub s.trace + rowsOf .mul s.trace
      + rowsOf .div s.trace ∧
    s.instret.toNat ≤ s.cycles.toNat ∧ s.cycles.toNat ≤ 6 * s.instret.toNat

/-- 10_state section 3: in a run the 64-bit counters never wrap. -/
def Obligations.CountersNeverWrapInARun : Prop :=
  ∀ (s : State) (w : Word) (i : Instr), Inv s → s.status = .running → RunsAt s.prog s.pc w i →
    ∃ t, step s = .next t ∧ t.cycles.toNat = s.cycles.toNat + cost i.mnemonic ∧
      t.instret.toNat = s.instret.toNat + 1

/-- 43_sequencing section 2: every run ends within as many steps as there are entries left, and one more. -/
def Obligations.EveryRunEndsWithinItsLengthPlusOne : Prop :=
  ∀ s : State, s.status = .running → programWellFormed s.prog = true → s.pc ≤ s.prog.length →
    ∃ k t, k ≤ s.prog.length - s.pc + 1 ∧ Host.Core.run Sys2Proof.core k s = .next t ∧ t.status ≠ .running

/-- 43_sequencing sections 2 and 4: a run executes entries `0` to `k - 1` and stops at `k`, the first index that is a
sentinel, a failing entry or the end of the list; what follows is never executed. -/
def Obligations.RunStopsAtTheFirstStoppingEntry : Prop :=
  ∀ (p : List Entry) (k : Nat), programWellFormed p = true → (∀ j, j < k → ∃ w i, RunsAt p j w i) →
    (HaltsAt p k ∨ ∃ d, FailsAt p k d) →
    ∃ t : State, Host.Core.run Sys2Proof.core (k + 1) (State.load p) = .next t ∧ t.pc = k ∧
      t.instret.toNat = k ∧ t.status ≠ .running ∧ t.trace.filterMap rowIndex = List.range k ∧
      (HaltsAt p k → 0 < k → t.status = .halted) ∧
      (∀ d, FailsAt p k d → t.status = .faulted d.kind d.token k)

/-! ## Outputs -/

/-- 43_sequencing sections 5 and 6 (with the spec's decision D17): what a run delivers when it halts, and when it
faults. -/
def Obligations.HaltedRunsDeliverFinalAndFaultedRunsOnlyTheFault : Prop :=
  (∀ s : State, s.status = .running → programWellFormed s.prog = true → HaltsAt s.prog s.pc → s.instret ≠ 0 →
    ∃ t, step s = .next t ∧ t.output = some (.final s.trace s.cycles s.instret s.x)) ∧
  (∀ (s : State) (d : Diag), s.status = .running → programWellFormed s.prog = true → FailsAt s.prog s.pc d →
    ∃ t, step s = .next t ∧ t.output = some (.fault d.kind d.token s.pc)) ∧
  (∀ s : State, s.status = .running → s.output = none)

/-- R135: the dump lists the eight registers in order, each with its name, `r0` to `r7`, its signed value and its 32
binary digits, most significant first. -/
def Obligations.DumpListsTheEightRegistersInOrder : Prop :=
  RegistersAreSpelt ∧ ∀ x : Vector Word 8, (dump x).length = 8 ∧
    (∀ r : Reg, ∃ l, (dump x)[r.val]? = some l ∧ l.name = regSpelling r ∧ l.value = (x.get r).toInt ∧
      SpellsBits l.bits 32 (u32 (x.get r))) ∧
    bitsOf 32 (-9#32) = "11111111111111111111111111110111".toList

/-- R68: the report renders a word as four groups of binary digits of widths 5, 3, 3 and 21. -/
def Obligations.WordTextIsTheFourBitGroups : Prop :=
  (∀ w : Word, ∃ a b c d : Text, wordText w = a ++ [' '] ++ b ++ [' '] ++ c ++ [' '] ++ d ∧
    SpellsBits a 5 (opcodeField w).toNat ∧ SpellsBits b 3 (targetField w).toNat ∧
    SpellsBits c 3 (sourceField w).toNat ∧ SpellsBits d 21 (immField w).toNat) ∧
  (∃ w, pack tables .mov 2 (.imm 34) = some w ∧ wordText w = "00001 010 000 000000000000000100010".toList)

/-- 43_sequencing section 5: the CPI figure is within half a hundredth of `cycles / instret`, whichever way a tie goes
(log entry 5), and none when nothing was executed; the document's example. -/
def Obligations.CpiIsRoundedToTwoDecimals : Prop :=
  (∀ c : Nat, cpiHundredths c 0 = none) ∧
  (∀ c n : Nat, 0 < n → ∃ h, cpiHundredths c n = some h ∧ |(h : ℚ) - 100 * c / n| ≤ 1 / 2) ∧
  cpiHundredths 15 7 = some 214

/-! ## The unbounded machine -/

/-- 42_arithmetic, its relation to the unbounded reading, part (a): on an instruction other than `div`, `wrap32` of the
unbounded machine's registers is this machine's registers. -/
def Obligations.WrappingCommutesExceptWithDivision : Prop :=
  ∀ (i : Instr) (s : State) (u : Vector Int 8), i.mnemonic ≠ .div → s.x = u.map wrap32 →
    ∃ t, exec i s = .next t ∧ t.x = (unboundedApply i u).map wrap32

/-- 42_arithmetic, its relation to the unbounded reading, part (b): while the unbounded machine's values stay in the
signed 32-bit range the two machines agree, division included. -/
def Obligations.MachinesAgreeWhileValuesStayInRange : Prop :=
  ∀ (i : Instr) (s : State) (u : Vector Int 8), s.x.map BitVec.toInt = u →
    (∀ v, unboundedResult i u = some v → -2 ^ 31 ≤ v ∧ v < 2 ^ 31) →
    ∃ t, exec i s = .next t ∧ t.x.map BitVec.toInt = unboundedApply i u

/-! ## The machine at any tables -/

/-- 00_scope section 4 and 43_sequencing section 1: at any tables a step runs the instruction the entry encodes and
decodes to, with the effect `exec` gives it but for the word in the row; an error of either unit is fatal; and `step` is
the step with the spec's default tables. -/
def Obligations.StepRunsTheDecodedInstructionAtAnyTables : Prop :=
  (∀ s : State, stepWith tables s = step s) ∧
  (∀ (T : Tables) (s : State) (e : Entry), s.status = .running → programWellFormed s.prog = true →
    s.prog[s.pc]? = some e → e.isSentinel = false →
    (∀ d, (e.encode T = .error d ∨ ∃ w, e.encode T = .ok w ∧ decodeWith T w = .error d) →
      stepWith T s = .next (s.raise d.kind d.token)) ∧
    (∀ w i, T.Valid → e.encode T = .ok w → decodeWith T w = .ok i → ∃ t evs, exec i s = .next t ∧
      t.trace = s.trace ++ s.rowOf i :: evs ∧
      stepWith T s = .next (State.mk t.x t.pc t.cycles t.instret t.status t.prog
        (s.trace ++ .row s.pc e.reported w (cost i.mnemonic) :: evs))))

/-- 92_eei_decisions, its note on D1, D2 and D3: a run of a program without word-level entries leaves the same
registers, `pc`, counters, status and events at any two valid tables, but for the words in the rows; and the machine at
the default tables is the machine. -/
def Obligations.RunsDoNotDependOnTheTables : Prop :=
  (∀ (T T' : Tables) (p : List Entry) (k : Nat) (t : State), T.Valid → T'.Valid → (∀ w, .word w ∉ p) →
    Host.Core.run (coreWith T) k (State.load p) = .next t →
    ∃ u : State, Host.Core.run (coreWith T') k (State.load p) = .next u ∧ u.x = t.x ∧ u.pc = t.pc ∧
      u.cycles = t.cycles ∧ u.instret = t.instret ∧ u.status = t.status ∧ u.prog = t.prog ∧
      u.trace.map Event.withoutWord = t.trace.map Event.withoutWord) ∧
  (∀ (k : Nat) (s : State), Host.Core.run (coreWith tables) k s = Host.Core.run Sys2Proof.core k s)
end

