-- ==== Sys2Proof/Laws/Alu.lean ====
section
/-! SUPPORT. `wrap32`, `sext21` and the arithmetic results. -/

namespace Sys2Proof.Machine

open Sys2Proof

/-- `wrap32` keeps a value that is in range (00_scope R16). -/
theorem wrap32_toInt {z : Int} (h1 : -2 ^ 31 ≤ z) (h2 : z < 2 ^ 31) : (wrap32 z).toInt = z := by
  simp only [wrap32, BitVec.toInt_ofInt]
  rw [Int.bmod_eq_of_le (by omega) (by omega)]

/-- `wrap32` of a register's signed value is the register's value. -/
@[simp] theorem wrap32_of_toInt (v : Word) : wrap32 v.toInt = v := BitVec.ofInt_toInt

/-- `wrap32` depends on the value modulo `2^32` only. -/
theorem wrap32_eq_iff (y z : Int) : wrap32 y = wrap32 z ↔ y % 2 ^ 32 = z % 2 ^ 32 := by
  have key : ∀ x : Int, (BitVec.ofInt 32 x).toInt % 2 ^ 32 = x % 2 ^ 32 := fun x => by
    rw [BitVec.toInt_ofInt]
    exact Int.bmod_emod
  constructor
  · intro h
    rw [← key y, ← key z]
    exact congrArg (fun v : Word => v.toInt % 2 ^ 32) h
  · intro h
    apply BitVec.eq_of_toInt_eq
    simp only [wrap32, BitVec.toInt_ofInt, Int.bmod_def]
    rw [show ((2 ^ 32 : Nat) : Int) = 2 ^ 32 from rfl, h]

/-- The signed reading of the immediate field is the field's two's complement value (30_encoding R57). -/
theorem sext21_eq_toInt (i : ImmField) : sext21 i = i.toInt := by
  have := i.isLt
  rw [sext21, BitVec.toInt_eq_toNat_cond]
  split <;> split <;> omega

theorem sext21_range (i : ImmField) : -2 ^ 20 ≤ sext21 i ∧ sext21 i < 2 ^ 20 := by
  have := i.isLt
  rw [sext21]
  split <;> simp <;> omega

/-- Sums, differences and products modulo `2^32` are those of the words (42_arithmetic R105). -/
theorem aluAdd_eq (a b : Word) : aluAdd a b = a + b := by
  simp [aluAdd, wrap32, BitVec.ofInt_add]

theorem aluSub_eq (a b : Word) : aluSub a b = a - b := by
  apply BitVec.eq_of_toInt_eq
  simp [aluSub, wrap32, BitVec.toInt_sub]

theorem aluMul_eq (a b : Word) : aluMul a b = a * b := by
  simp [aluMul, wrap32, BitVec.ofInt_mul]

end Sys2Proof.Machine
end

