-- ==== Sys2Proof/Laws/Decode.lean ====
section
/-! SUPPORT. The fields of a word and the table look-ups. -/

namespace Sys2Proof

/-! ## A word and its four fields (30_encoding R51) -/

section Fields
variable (o : BitVec 5) (t s : BitVec 3) (i : ImmField)

@[simp] theorem opcodeField_wordOfFields : opcodeField (wordOfFields o t s i) = o := by
  ext k hk
  simp [opcodeField, wordOfFields]
  grind

@[simp] theorem targetField_wordOfFields : targetField (wordOfFields o t s i) = t := by
  ext k hk
  simp [targetField, wordOfFields]
  grind

@[simp] theorem sourceField_wordOfFields : sourceField (wordOfFields o t s i) = s := by
  ext k hk
  simp [sourceField, wordOfFields]
  grind

@[simp] theorem immField_wordOfFields : immField (wordOfFields o t s i) = i := by
  ext k hk
  simp [immField, wordOfFields]
  grind

end Fields

/-- A word is the word of its fields. -/
theorem wordOfFields_fields (w : Word) :
    wordOfFields (opcodeField w) (targetField w) (sourceField w) (immField w) = w := by
  ext k hk
  simp [opcodeField, targetField, sourceField, immField, wordOfFields]
  grind

/-! ## Table look-ups -/

/-- What the opcode look-up finds has that code (40_encode_decode R88). -/
theorem opc_of_opcInv {T : Tables} {c : BitVec 5} {mn : Mnemonic} (h : opcInv T c = some mn) : T.opc mn = c := by
  simpa using List.find?_some h

/-- The opcode look-up finds nothing only when no mnemonic has the code. -/
theorem opcInv_eq_none {T : Tables} {c : BitVec 5} : opcInv T c = none ↔ ∀ mn, T.opc mn ≠ c := by
  constructor
  · intro h mn
    have := List.find?_eq_none.mp h mn (by cases mn <;> simp [Mnemonic.all])
    simpa using this
  · intro h
    exact List.find?_eq_none.mpr fun mn _ => by simpa using h mn

theorem opcInv_opc {T : Tables} (hT : T.Valid) (mn : Mnemonic) : opcInv T (T.opc mn) = some mn := by
  cases h : opcInv T (T.opc mn) with
  | none => exact absurd rfl (opcInv_eq_none.mp h mn)
  | some mn' => rw [hT.opc_inj _ _ (opc_of_opcInv h)]

theorem regnum_regcode {T : Tables} (hT : T.Valid) (r : Reg) : regnum T (T.regcode r) = r := by
  have hmem : r ∈ allRegs := by revert r; decide
  cases h : allRegs.find? (fun q => T.regcode q == T.regcode r) with
  | none => exact absurd (List.find?_eq_none.mp h r hmem) (by simp)
  | some q =>
    have : T.regcode q = T.regcode r := by simpa using List.find?_some h
    simp [regnum, h, hT.regcode_inj _ _ this]

/-- Eight distinct 3-bit codes are all the 3-bit codes (30_encoding R61). -/
theorem regcode_surjective {T : Tables} (hT : T.Valid) (c : BitVec 3) : ∃ r, T.regcode r = c := by
  have hinj : Function.Injective (fun r : Reg => (T.regcode r).toFin) := fun a b h =>
    hT.regcode_inj a b (BitVec.eq_of_toFin_eq h)
  obtain ⟨r, hr⟩ := (Finite.injective_iff_surjective.mp hinj) c.toFin
  exact ⟨r, BitVec.eq_of_toFin_eq hr⟩

theorem regcode_regnum {T : Tables} (hT : T.Valid) (c : BitVec 3) : T.regcode (regnum T c) = c := by
  obtain ⟨r, rfl⟩ := regcode_surjective hT c
  rw [regnum_regcode hT]

/-- Only `r0` has the all-zero code. -/
theorem regcode_eq_zero {T : Tables} (hT : T.Valid) {r : Reg} : T.regcode r = 0 ↔ r = 0 :=
  ⟨fun h => hT.regcode_inj _ _ (h.trans hT.regcode_zero.symm), fun h => h ▸ hT.regcode_zero⟩

/-- The spec's default tables are valid (00_scope R7). -/
theorem tables_valid : tables.Valid where
  opc_inj a b := by cases a <;> cases b <;> decide
  regcode_inj := by decide
  regcode_zero := by decide

/-! ## Taking an instruction apart -/

@[simp] theorem mnemonic_make (mn : Mnemonic) (tgt : Reg) (src : Source) :
    (Instr.make mn tgt src).mnemonic = mn := by cases mn <;> rfl
@[simp] theorem target_make (mn : Mnemonic) (tgt : Reg) (src : Source) :
    (Instr.make mn tgt src).target = tgt := by cases mn <;> rfl
@[simp] theorem source_make (mn : Mnemonic) (tgt : Reg) (src : Source) :
    (Instr.make mn tgt src).source = src := by cases mn <;> rfl
theorem make_eta (i : Instr) : Instr.make i.mnemonic i.target i.source = i := by cases i <;> rfl

/-- Everything the decoder can do. -/
theorem decodeWith_cases (T : Tables) (w : Word) :
    (opcInv T (opcodeField w) = none ∧ decodeWith T w = .error ⟨.decode, .word w⟩) ∨
      ∃ mn, opcInv T (opcodeField w) = some mn ∧
        decodeWith T w =
          .ok (Instr.make mn (regnum T (targetField w)) (sourceOfFields T (sourceField w) (immField w))) := by
  cases h : opcInv T (opcodeField w) <;> simp [decodeWith, h]

end Sys2Proof
end

