-- ==== Sys2Proof/Laws/State.lean ====
section
/-! SUPPORT. What each operation over the state does to each field, and the laws of the register file. -/

namespace Sys2Proof.Machine

open Sys2Proof

section Write
variable (s : State) (r : Reg) (v : Word)
@[simp] theorem write_pc : (s.write r v).pc = s.pc := rfl
@[simp] theorem write_cycles : (s.write r v).cycles = s.cycles := rfl
@[simp] theorem write_instret : (s.write r v).instret = s.instret := rfl
@[simp] theorem write_status : (s.write r v).status = s.status := rfl
@[simp] theorem write_prog : (s.write r v).prog = s.prog := rfl
@[simp] theorem write_trace : (s.write r v).trace = s.trace := rfl
end Write

section Emit
variable (s : State) (e : Event)
@[simp] theorem emit_x : (s.emit e).x = s.x := rfl
@[simp] theorem emit_pc : (s.emit e).pc = s.pc := rfl
@[simp] theorem emit_cycles : (s.emit e).cycles = s.cycles := rfl
@[simp] theorem emit_instret : (s.emit e).instret = s.instret := rfl
@[simp] theorem emit_status : (s.emit e).status = s.status := rfl
@[simp] theorem emit_prog : (s.emit e).prog = s.prog := rfl
@[simp] theorem emit_trace : (s.emit e).trace = s.trace ++ [e] := rfl
end Emit

section Charge
variable (s : State) (mn : Mnemonic)
@[simp] theorem charge_x : (s.charge mn).x = s.x := rfl
@[simp] theorem charge_pc : (s.charge mn).pc = s.pc := rfl
@[simp] theorem charge_cycles : (s.charge mn).cycles = s.cycles + BitVec.ofNat 64 (cost mn) := rfl
@[simp] theorem charge_instret : (s.charge mn).instret = s.instret + 1 := rfl
@[simp] theorem charge_status : (s.charge mn).status = s.status := rfl
@[simp] theorem charge_prog : (s.charge mn).prog = s.prog := rfl
@[simp] theorem charge_trace : (s.charge mn).trace = s.trace := rfl
end Charge

section Issue
variable (s : State) (T : Tables) (i : Instr)
@[simp] theorem issue_x : (s.issue T i).x = s.x := rfl
@[simp] theorem issue_pc : (s.issue T i).pc = s.pc := rfl
@[simp] theorem issue_cycles : (s.issue T i).cycles = s.cycles + BitVec.ofNat 64 (cost i.mnemonic) := rfl
@[simp] theorem issue_instret : (s.issue T i).instret = s.instret + 1 := rfl
@[simp] theorem issue_status : (s.issue T i).status = s.status := rfl
@[simp] theorem issue_prog : (s.issue T i).prog = s.prog := rfl
@[simp] theorem issue_trace : (s.issue T i).trace = s.trace ++ [s.rowWith T i] := rfl
end Issue

section Advance
variable (s : State)
@[simp] theorem advance_x : s.advance.x = s.x := rfl
@[simp] theorem advance_pc : s.advance.pc = s.pc + 1 := rfl
@[simp] theorem advance_cycles : s.advance.cycles = s.cycles := rfl
@[simp] theorem advance_instret : s.advance.instret = s.instret := rfl
@[simp] theorem advance_status : s.advance.status = s.status := rfl
@[simp] theorem advance_prog : s.advance.prog = s.prog := rfl
@[simp] theorem advance_trace : s.advance.trace = s.trace := rfl
end Advance

section Raise
variable (s : State) (kind : ErrorKind) (token : Token)
@[simp] theorem raise_x : (s.raise kind token).x = s.x := rfl
@[simp] theorem raise_pc : (s.raise kind token).pc = s.pc := rfl
@[simp] theorem raise_cycles : (s.raise kind token).cycles = s.cycles := rfl
@[simp] theorem raise_instret : (s.raise kind token).instret = s.instret := rfl
@[simp] theorem raise_status : (s.raise kind token).status = .faulted kind token s.pc := rfl
@[simp] theorem raise_prog : (s.raise kind token).prog = s.prog := rfl
@[simp] theorem raise_trace : (s.raise kind token).trace = s.trace := rfl
end Raise

section Load
variable (p : List Entry)
@[simp] theorem load_x : (State.load p).x = Vector.replicate 8 0 := rfl
@[simp] theorem load_pc : (State.load p).pc = 0 := rfl
@[simp] theorem load_cycles : (State.load p).cycles = 0 := rfl
@[simp] theorem load_instret : (State.load p).instret = 0 := rfl
@[simp] theorem load_status : (State.load p).status = .running := rfl
@[simp] theorem load_prog : (State.load p).prog = p := rfl
@[simp] theorem load_trace : (State.load p).trace = [] := rfl
end Load

/-! ## Registers -/

@[simp] theorem read_emit (s : State) (e : Event) (r : Reg) : (s.emit e).read r = s.read r := rfl
@[simp] theorem read_charge (s : State) (mn : Mnemonic) (r : Reg) : (s.charge mn).read r = s.read r := rfl
@[simp] theorem read_issue (s : State) (T : Tables) (i : Instr) (r : Reg) : (s.issue T i).read r = s.read r := rfl
@[simp] theorem read_advance (s : State) (r : Reg) : s.advance.read r = s.read r := rfl
@[simp] theorem read_raise (s : State) (kind : ErrorKind) (token : Token) (r : Reg) :
    (s.raise kind token).read r = s.read r := rfl

/-- A register reads as written; the others are left alone. -/
theorem read_write (s : State) (r q : Reg) (v : Word) :
    (s.write r v).read q = if q = r then v else s.read q := by
  simp [State.read, State.write, Vector.get_eq_getElem, Vector.getElem_set, Fin.ext_iff, eq_comm]

@[simp] theorem read_write_same (s : State) (r : Reg) (v : Word) : (s.write r v).read r = v := by
  simp [read_write]

theorem read_write_other (s : State) {r q : Reg} (v : Word) (h : q ≠ r) : (s.write r v).read q = s.read q := by
  simp [read_write, h]

/-- Two register files that read alike are equal. -/
theorem regs_ext {x y : Vector Word 8} (h : ∀ r : Reg, x.get r = y.get r) : x = y :=
  Vector.ext fun k hk => by simpa [Vector.get_eq_getElem] using h ⟨k, hk⟩

/-- What the source operand resolves to depends on the registers only. -/
@[simp] theorem resolve_issue (s : State) (T : Tables) (i : Instr) (src : Source) :
    (s.issue T i).resolve src = s.resolve src := by
  cases src <;> rfl

@[simp] theorem resolve_imm (s : State) (i : ImmField) : s.resolve (.imm i) = wrap32 (sext21 i) := rfl

theorem resolve_reg (s : State) {r : Reg} (i : ImmField) (h : r ≠ 0) : s.resolve (.reg r i) = s.read r := by
  simp [State.resolve, h]

/-! ## Dividing and halting -/

/-- Everything `div` can do to an issued state. -/
theorem divide_cases (t : State) (tgt : Reg) (val : Word) :
    (val = 0 ∧ t.divide tgt val = t.emit (.divZero t.pc)) ∨
      (val ≠ 0 ∧ t.divide tgt val = t.write tgt (aluDiv (t.read tgt) val)) := by
  by_cases h : val = 0
  · exact .inl ⟨h, if_pos h⟩
  · exact .inr ⟨h, if_neg h⟩

/-- The halt changes the status only. -/
theorem halt_cases (s : State) :
    (s.instret = 0 ∧ s.halt = s.raise .degenerateProgram .none) ∨
      (s.instret ≠ 0 ∧ s.halt = { s with status := .halted }) := by
  by_cases h : s.instret = 0
  · exact .inl ⟨h, if_pos h⟩
  · exact .inr ⟨h, if_neg h⟩

/-! ## The sequencer -/

/-- Everything a step can do, and when: run the decoded instruction, halt, take an encoder's or a decoder's error,
or stop without a next state. -/
theorem step_cases (s : State) (T : Tables) (run : Executor) :
    (s.status ≠ .running ∧ (s.stepRun T run = .fault .runHalted ∨ s.stepRun T run = .fault .runFaulted)) ∨
    (s.status = .running ∧ programWellFormed s.prog = false ∧ s.stepRun T run = .refused .programTooLong) ∨
    (s.status = .running ∧ programWellFormed s.prog = true ∧
      ((s.fetch = none ∧ s.pc ≠ s.prog.length ∧ s.stepRun T run = .fault .fetchOutOfRange) ∨
       (s.fetch = none ∧ s.pc = s.prog.length ∧ s.stepRun T run = .next s.halt) ∨
       ∃ e, s.fetch = some e ∧
        ((e.isSentinel = true ∧ s.stepRun T run = .next s.halt) ∨
         (e.isSentinel = false ∧
          ((∃ d, e.encode T = .error d ∧ s.stepRun T run = .next (s.raise d.kind d.token)) ∨
           ∃ w, e.encode T = .ok w ∧
            ((∃ d, decodeWith T w = .error d ∧ s.stepRun T run = .next (s.raise d.kind d.token)) ∨
             ∃ i, decodeWith T w = .ok i ∧ s.stepRun T run = run i s)))))) := by
  cases hst : s.status with
  | halted => simp [State.stepRun, hst]
  | faulted k t p => simp [State.stepRun, hst]
  | running =>
    cases hwf : programWellFormed s.prog with
    | false => simp [State.stepRun, hst, hwf]
    | true =>
      have hrun : s.stepRun T run = s.sequence T run := by simp [State.stepRun, hst, hwf]
      cases hf : s.fetch with
      | none => by_cases hpc : s.pc = s.prog.length <;> simp [hrun, State.sequence, hf, hpc]
      | some e =>
        cases hs : e.isSentinel with
        | true => simp [hrun, State.sequence, hf, State.runEntry, hs]
        | false =>
          cases he : e.encode T with
          | error d => simp [hrun, State.sequence, hf, State.runEntry, hs, he]
          | ok w => cases hd : decodeWith T w <;> simp [hrun, State.sequence, hf, State.runEntry, hs, he, State.runWord, hd]

end Sys2Proof.Machine
end

