-- ==== Sys2Proof/Laws/Exec.lean ====
section
/-! SUPPORT. Everything an instruction can do, said once: `exec` as one equation. -/

namespace Sys2Proof.Machine

open Sys2Proof

/-- The value an instruction writes to its target in the state `s`; none for a division by zero. -/
def written (i : Instr) (s : State) : Option Word :=
  match i with
  | .mov _ src => some (s.resolve src)
  | .add tgt src => some (aluAdd (s.read tgt) (s.resolve src))
  | .sub tgt src => some (aluSub (s.read tgt) (s.resolve src))
  | .mul tgt src => some (aluMul (s.read tgt) (s.resolve src))
  | .div tgt src => if s.resolve src = 0 then none else some (aluDiv (s.read tgt) (s.resolve src))

/-- The registers after an instruction that writes `v`, or nothing. -/
def regsAfter (s : State) (r : Reg) : Option Word → Vector Word 8
  | none => s.x
  | some v => (s.write r v).x

/-- The diagnostics after an instruction's row. -/
def diagnostics (s : State) : Option Word → List Event
  | none => [.divZero s.pc]
  | some _ => []

/-- `execWith` as one equation: each field of the only state it can answer, for any tables. -/
theorem execWith_eq (T : Tables) (i : Instr) (s : State) :
    execWith T i s = .next
      { x := regsAfter s i.target (written i s)
        pc := s.pc + 1
        cycles := s.cycles + BitVec.ofNat 64 (cost i.mnemonic)
        instret := s.instret + 1
        status := s.status
        prog := s.prog
        trace := s.trace ++ s.rowWith T i :: diagnostics s (written i s) } := by
  cases i with
  | mov tgt src => simp only [execWith, execMovWith, resolve_issue]; rfl
  | add tgt src => simp only [execWith, execAddWith, resolve_issue, read_issue]; rfl
  | sub tgt src => simp only [execWith, execSubWith, resolve_issue, read_issue]; rfl
  | mul tgt src => simp only [execWith, execMulWith, resolve_issue, read_issue]; rfl
  | div tgt src =>
    obtain ⟨h, hd⟩ | ⟨h, hd⟩ := divide_cases (s.issue T (.div tgt src)) tgt (s.resolve src)
    · simp only [execWith, execDivWith, resolve_issue, hd, written, if_pos h]
      simp [State.emit, State.advance, State.issue, State.charge, regsAfter, diagnostics, State.rowWith, Instr.mnemonic]
    · simp only [execWith, execDivWith, resolve_issue, hd, written, if_neg h]
      rfl

/-- `exec` is `execWith` at the default tables. -/
theorem exec_eq_execWith (i : Instr) (s : State) : exec i s = execWith tables i s := by cases i <;> rfl

/-- `exec` as one equation. -/
theorem exec_eq (i : Instr) (s : State) :
    exec i s = .next
      { x := regsAfter s i.target (written i s)
        pc := s.pc + 1
        cycles := s.cycles + BitVec.ofNat 64 (cost i.mnemonic)
        instret := s.instret + 1
        status := s.status
        prog := s.prog
        trace := s.trace ++ s.rowOf i :: diagnostics s (written i s) } :=
  (exec_eq_execWith i s).trans (execWith_eq tables i s)

/-- A division by zero is the only instruction that writes nothing. -/
theorem written_eq_none {i : Instr} {s : State} :
    written i s = none ↔ i.mnemonic = .div ∧ s.resolve i.source = 0 := by
  cases i with
  | div tgt src => by_cases h : s.resolve src = 0 <;> simp [written, Instr.mnemonic, Instr.source]
  | mov tgt src => simp [written, Instr.mnemonic]
  | add tgt src => simp [written, Instr.mnemonic]
  | sub tgt src => simp [written, Instr.mnemonic]
  | mul tgt src => simp [written, Instr.mnemonic]

/-- The cost is at most 6 (00_scope R6). -/
theorem cost_range (mn : Mnemonic) : 1 ≤ cost mn ∧ cost mn ≤ 6 := by cases mn <;> decide

/-- What `exec` answers does not depend on anything but the listed fields; it always answers a next state. -/
theorem exec_next_eq {i : Instr} {s t : State} (h : exec i s = .next t) :
    t.x = regsAfter s i.target (written i s) ∧ t.pc = s.pc + 1 ∧
      t.cycles = s.cycles + BitVec.ofNat 64 (cost i.mnemonic) ∧ t.instret = s.instret + 1 ∧
      t.status = s.status ∧ t.prog = s.prog ∧
      t.trace = s.trace ++ s.rowOf i :: diagnostics s (written i s) := by
  rw [exec_eq] at h
  cases h
  exact ⟨rfl, rfl, rfl, rfl, rfl, rfl, rfl⟩

end Sys2Proof.Machine
end

