-- ==== Sys2Proof/Laws/PerInstr.lean ====
section
/-! SUPPORT. Statements about every instruction, one lemma per constructor. -/

namespace Sys2Proof.Laws.WordFields

open Sys2Proof

/-- The word of a well-formed instruction holds, in the fields of 30_encoding R51, the code of its mnemonic (R60), the
number of its target (R61), the source code of its operand form (R58) and its immediate field. -/
def Statement (i : Instr) : Prop :=
  WellFormed i = true →
    opcodeField (encode i) = opcDefault i.mnemonic ∧ (targetField (encode i)).toNat = i.target.val ∧
      (sourceField (encode i) = 0 ↔ ∃ f, i.source = .imm f) ∧ immField (encode i) = i.source.field

/-- All of the statement but the mnemonic's code: one proof for the shared format. -/
theorem fields_of_make (mn : Mnemonic) (tgt : Reg) (src : Source) : Statement (Instr.make mn tgt src) := by
  intro h
  have hsrc : src.wellFormed = true := by simpa [WellFormed] using h
  refine ⟨by simp [encode, encodeWith]; rfl, ?_, ?_, by simp [encode, encodeWith]⟩
  · simp [encode, encodeWith, tables, regcodeDefault]
  · simp only [encode, encodeWith, sourceField_wordOfFields, source_make]
    cases src with
    | imm f => simp [Source.code]
    | reg r f =>
      have hr : r ≠ 0 := by simpa [Source.wellFormed] using hsrc
      simpa [Source.code] using fun e => hr ((regcode_eq_zero tables_valid).mp e)

theorem mov (tgt : Reg) (src : Source) : Statement (.mov tgt src) := fields_of_make .mov tgt src
theorem add (tgt : Reg) (src : Source) : Statement (.add tgt src) := fields_of_make .add tgt src
theorem sub (tgt : Reg) (src : Source) : Statement (.sub tgt src) := fields_of_make .sub tgt src
theorem mul (tgt : Reg) (src : Source) : Statement (.mul tgt src) := fields_of_make .mul tgt src
theorem div (tgt : Reg) (src : Source) : Statement (.div tgt src) := fields_of_make .div tgt src

end Sys2Proof.Laws.WordFields
end

