-- ==== Sys2Proof/Laws/Run.lean ====
section
/-! SUPPORT. Runs of several steps, and what a step that answers a next state has done. -/

namespace Sys2Proof.Machine

open Sys2Proof

/-- A run of `k + 1` steps that begins with a step to `t` goes on as a run of `k` steps from `t`. -/
theorem run_next {s t : State} (h : step s = .next t) (k : Nat) :
    Host.Core.run Sys2Proof.core (k + 1) s = Host.Core.run Sys2Proof.core k t := by
  have h' : Sys2Proof.core.step s = .next t := h
  simp only [Host.Core.run, h']

/-- A run that answers a state began with a step that answered one. -/
theorem run_succ_inv {s u : State} {k : Nat} (h : Host.Core.run Sys2Proof.core (k + 1) s = .next u) :
    ∃ t, step s = .next t ∧ Host.Core.run Sys2Proof.core k t = .next u := by
  cases hs : step s with
  | next t => exact ⟨t, rfl, by rw [← run_next hs]; exact h⟩
  | fault r =>
    have h' : Sys2Proof.core.step s = .fault r := hs
    simp [Host.Core.run, h'] at h
  | refused r =>
    have h' : Sys2Proof.core.step s = .refused r := hs
    simp [Host.Core.run, h'] at h

/-- A run of `a + b` steps is a run of `a` steps and then one of `b`. -/
theorem run_add {a : Nat} : ∀ {s t : State}, Host.Core.run Sys2Proof.core a s = .next t → ∀ b,
    Host.Core.run Sys2Proof.core (a + b) s = Host.Core.run Sys2Proof.core b t := by
  induction a with
  | zero =>
    intro s t h b
    cases h
    rw [Nat.zero_add]
  | succ a ih =>
    intro s t h b
    obtain ⟨u, hu, h⟩ := run_succ_inv h
    rw [Nat.succ_add, run_next hu]
    exact ih h b

end Sys2Proof.Machine
end

