-- ==== Sys2Proof/Tests/Slice0.lean ====
section
/-! SUPPORT. Tests from the spec's worked examples (95_test_vectors), the smoke tests of the well-formedness checks, and
a witness for the hypotheses of every obligation that has some. -/

namespace Sys2Proof.Tests

open Sys2Proof Sys2Proof.Machine

/-- The state an outcome answers. -/
def answered : Host.Outcome State Fault Refusal → Option State
  | .next s => some s
  | .fault _ => none
  | .refused _ => none

/-- Reset with one register set. -/
def one (r : Reg) (v : Int) : State := State.reset.write r (BitVec.ofInt 32 v)

/-- The signed value of a register after an instruction. -/
def after (i : Instr) (s : State) (r : Reg) : Option Int := (answered (exec i s)).map fun t => (t.read r).toInt

/-! ## Well-formedness -/

theorem test_wellFormed_refuses_r0_as_source : WellFormed (.add 1 (.reg 0 0)) = false := by decide
theorem test_wellFormed_accepts_r0_as_target : WellFormed (.add 0 (.reg 7 0)) = true := by decide
theorem test_program_too_long : programWellFormed (List.replicate (2 ^ 61) .sentinel) = false := by
  rw [programWellFormed, List.length_replicate]
  decide
theorem test_tables_with_one_opcode_are_invalid : ¬ (Tables.mk (fun _ => 1) regcodeDefault).Valid := fun h =>
  Mnemonic.noConfusion (h.opc_inj .mov .add rfl)
theorem test_tables_with_one_regcode_are_invalid : ¬ (Tables.mk opcDefault (fun _ => 0)).Valid := fun h =>
  absurd (h.regcode_inj 0 1 rfl) (by decide)
theorem test_tables_with_nonzero_r0_are_invalid : ¬ (Tables.mk opcDefault (fun r => BitVec.ofNat 3 (7 - r.val))).Valid :=
  fun h => absurd h.regcode_zero (by decide)

/-! ## Words written out from the encodings of 30_encoding R51 and R60 (95_test_vectors 2.2, 2.3) -/

theorem test_decode_mov_imm : decode 0b00001_010_000_000000000000000100010 = .ok (.mov 2 (.imm 34)) := by decide
theorem test_decode_add_reg : decode 0b00010_000_111_000000000000000000000 = .ok (.add 0 (.reg 7 0)) := by decide
theorem test_decode_sub_reg : decode 0b00011_010_011_000000000000000000000 = .ok (.sub 2 (.reg 3 0)) := by decide
theorem test_decode_mul_imm : decode 0b00100_100_000_000000000000000001010 = .ok (.mul 4 (.imm 10)) := by decide
theorem test_decode_div_imm : decode 0b00101_101_000_000000000000000000101 = .ok (.div 5 (.imm 5)) := by decide
theorem test_decode_noncanonical : decode 0x12345678 = .ok (.add 2 (.reg 1 0b101000101011001111000)) := by decide
theorem test_decode_unassigned : decode 0x30000000 = .error ⟨.decode, .word 0x30000000⟩ := by decide
theorem test_encode_div_reg : encode (.div 6 (.reg 1 0)) = 0x2E200000 := by decide
theorem test_encode_add_imm : encode (.add 5 (.imm (-9))) = 0x151FFFF7 := by decide
theorem test_pack_r0_source : pack tables .div 1 (.reg 0) = some 0x29000000 := by decide
theorem test_pack_out_of_range : pack tables .mov 1 (.imm 1048576) = some 0x09100000 := by decide
theorem test_packImm_boundaries :
    packImm (-2097152) = some 0 ∧ packImm (-2097153) = none ∧ packImm 3000000 = some 0x0DC6C0 := by decide
theorem test_sext21_boundaries : sext21 0x100000 = -1048576 ∧ sext21 0x0FFFFF = 1048575 := by decide
theorem test_decodeTableWord : decodeTableWord 32 0x2D000005 = some (.div 5 (.imm 5)) := by decide
theorem test_wordText : wordText 0x1A600000 = "00011 010 011 000000000000000000000".toList := by decide

/-! ## Texts (95_test_vectors 2.7) -/

theorem test_text_with_blanks : encodeText tables "  mov   r2\t34 ".toList = .ok 0x0A000022 := by decide
theorem test_text_signs_and_zeros :
    literalOf "+34".toList = some 34 ∧ literalOf "-0".toList = some 0 ∧ literalOf "007".toList = some 7 ∧
    literalOf "-007".toList = some (-7) ∧ literalOf "+00".toList = some 0 ∧ literalOf "+".toList = none := by decide
theorem test_text_token_count :
    encodeText tables "mov r1".toList = .error ⟨.malformedInstruction, .text "mov r1".toList⟩ ∧
    encodeText tables "".toList = .error ⟨.malformedInstruction, .text "".toList⟩ ∧
    encodeText tables "mov r1 1 2".toList = .error ⟨.malformedInstruction, .text "mov r1 1 2".toList⟩ := by decide
theorem test_text_upper_case :
    encodeText tables "MOV r1 0".toList = .error ⟨.unknownMnemonic, .text "MOV".toList⟩ := by decide
theorem test_text_mnemonics :
    encodeText tables "mov r1 1".toList = .ok 0x09000001 ∧ encodeText tables "add r2 1".toList = .ok 0x12000001 ∧
    encodeText tables "sub r3 r4".toList = .ok 0x1B800000 ∧ encodeText tables "mul r5 r6".toList = .ok 0x25C00000 ∧
    encodeText tables "div r7 r1".toList = .ok 0x2F200000 := by decide
theorem test_text_registers :
    encodeText tables "mov r0 r7".toList = .ok 0x08E00000 ∧ encodeText tables "mov r4 r3".toList = .ok 0x0C600000 ∧
    encodeText tables "mov r6 r5".toList = .ok 0x0EA00000 ∧
    encodeText tables "mov R1 0".toList = .error ⟨.unknownRegister, .text "R1".toList⟩ := by decide
theorem test_text_number_as_target :
    encodeText tables "mov 5 1".toList = .error ⟨.unknownRegister, .text "5".toList⟩ := by decide
theorem test_text_hexadecimal_operand :
    encodeText tables "mov r1 0x10".toList = .error ⟨.unknownRegister, .text "0x10".toList⟩ := by decide
theorem test_text_first_failing_check :
    encodeText tables "foo r9 x".toList = .error ⟨.unknownMnemonic, .text "foo".toList⟩ := by decide
theorem test_text_below_range :
    encodeText tables "mov r1 -2097153".toList = .error ⟨.encoding, .text "-2097153".toList⟩ := by decide
theorem test_text_sentinel :
    (Entry.text "end 0 0".toList).isSentinel = true ∧ (Entry.text "end 00 0".toList).isSentinel = false ∧
    (Entry.text "end".toList).isSentinel = false := by decide

/-! ## Instructions (95_test_vectors 2.4, 2.5, 2.6) -/

theorem test_mov_negative_immediate : after (.mov 1 (.imm (-1048576))) (one 1 77) 1 = some (-1048576) := by decide
theorem test_mov_from_register : after (.mov 4 (.reg 2 0)) (one 2 (-9)) 4 = some (-9) := by decide
theorem test_add_wraps : after (.add 3 (.imm 1)) (one 3 2147483647) 3 = some (-2147483648) := by decide
theorem test_add_doubles : after (.add 1 (.reg 1 0)) (one 1 5) 1 = some 10 := by decide
theorem test_sub_target_is_minuend : after (.sub 2 (.imm 43)) (one 2 34) 2 = some (-9) := by decide
theorem test_sub_wraps : after (.sub 3 (.imm (-1))) (one 3 2147483647) 3 = some (-2147483648) := by decide
theorem test_mul_wraps : after (.mul 2 (.reg 2 0)) (one 2 46341) 2 = some (-2147479015) := by decide
theorem test_mul_negative : after (.mul 4 (.imm 10)) (one 4 (-9)) 4 = some (-90) := by decide
theorem test_div_floors : after (.div 1 (.imm 2)) (one 1 (-7)) 1 = some (-4) := by decide
theorem test_div_by_zero_register :
    (answered (exec (.div 1 (.reg 6 0)) (one 1 100))).map (fun t => ((t.read 1).toInt, t.cycles, t.pc, t.trace)) =
      some (100, 6, 1, [.row 0 none 0x29C00000 6, .divZero 0]) := by decide

/-! ## The sequencer (95_test_vectors P5, P6, P7, 2.8) -/

theorem test_step_text_row :
    (answered (step (State.load [.text "mov r2 34".toList]))).map (fun t => (t.read 2, t.trace)) =
      some (34, [.row 0 (some (.text "mov r2 34".toList)) 0x0A000022 1]) := by decide
theorem test_step_unknown_mnemonic :
    (answered (step (State.load [.text "bogus r1 1".toList]))).map State.status =
      some (.faulted .unknownMnemonic (.text "bogus".toList) 0) := by decide
theorem test_step_decode_error :
    (answered (step (State.load [.word 0]))).map State.status = some (.faulted .decode (.word 0) 0) := by decide
theorem test_step_degenerate :
    (answered (step (State.load [.text "end 0 0".toList]))).map State.status =
      some (.faulted .degenerateProgram .none 0) := by decide
theorem test_step_placed_word :
    (answered (step (State.reset.withFetchWord 32 0x23100000))).map (fun t => (t.pc, t.cycles, t.instret)) =
      some (1, 4, 1) := by decide
theorem test_cpi_example : cpiHundredths 15 7 = some 214 := by decide
theorem test_dump_minus_nine :
    (dumpLine (one 2 (-9)).x 2).bits = "11111111111111111111111111110111".toList := by decide

/-! ## Witnesses: for each obligation with hypotheses, values that meet them -/

theorem witness_DecodeRecoversEncodedInstruction :
    tables.Valid ∧ WellFormed (.mov 0 (.imm (-1))) = true ∧ WellFormed (.div 7 (.reg 7 5)) = true :=
  ⟨tables_valid, by decide, by decide⟩
theorem witness_EncodeRecoversDecodedWord : tables.Valid ∧ decodeWith tables 0x12345678 =
    .ok (.add 2 (.reg 1 0b101000101011001111000)) := ⟨tables_valid, by decide⟩
theorem witness_OnlyTheOpcodeFieldCanBeIllegal : tables.Valid := tables_valid
theorem witness_ImmediateFieldRoundTrip :
    (packImm (-2 ^ 20) = some 0x100000 ∧ sext21 0x100000 = -2 ^ 20) ∧
    (packImm (2 ^ 20) = some 0x100000 ∧ sext21 0x100000 = 2 ^ 20 + -1 * 2 ^ 21) ∧ packImm (-2 ^ 21 - 1) = none := by
  decide
theorem witness_EncodedFieldsHoldTheOperands : tables.Valid ∧ pack tables .mov 7 (.imm (-2 ^ 21)) = some 0x0F000000 :=
  ⟨tables_valid, by decide⟩
theorem witness_DecoderReadsBackTheTriple : tables.Valid ∧ (7 : Reg) ≠ 0 ∧ pack tables .sub 2 (.reg 3) = some 0x1A600000 ∧
    pack tables .sub 1 (.imm (2 ^ 20 - 1)) = some 0x190FFFFF := ⟨tables_valid, by decide, by decide, by decide⟩
theorem witness_CanonicalWordsAreTheEncoders : tables.Valid ∧ canonicalWord tables 0x0F1FFFFF = true ∧
    canonicalWord tables 0x0A7FFFFF = false ∧ canonicalWord tables 0 = false :=
  ⟨tables_valid, by decide, by decide, by decide⟩
theorem witness_ReencodingADecodedWord : tables.Valid ∧
    decodeWith tables 0x0A7FFFFF = .ok (.mov 2 (.reg 3 (-1))) ∧ canonicalWord tables 0x0A7FFFFF = false ∧
    decodeWith tables 0x0A600000 = .ok (.mov 2 (.reg 3 0)) ∧ canonicalWord tables 0x0A600000 = true :=
  ⟨tables_valid, by decide, by decide, by decide, by decide⟩
theorem witness_EncoderInjectiveOnExactOperands : tables.Valid ∧ ExactOperand (.reg 7) ∧ ExactOperand (.imm (-2 ^ 20)) ∧
    pack tables .mov 1 (.imm (-2 ^ 20)) = pack tables .mov 1 (.imm (-2 ^ 20)) :=
  ⟨tables_valid, by simp [ExactOperand], by simp [ExactOperand], rfl⟩
theorem witness_UnusedImmediateFieldIsIgnored : tables.Valid ∧ (3 : BitVec 3) ≠ 0 ∧ (3 : Reg) ≠ 0 ∧
    pack tables .add 1 (.reg 3) = some 0x11600000 ∧ sourceField 0x11600000 ≠ 0 :=
  ⟨tables_valid, by decide, by decide, by decide, by decide⟩
theorem witness_TokensAreTheRunsBetweenBlanks : IsToken "mov".toList ∧ IsToken "r2".toList ∧ IsToken "34".toList ∧
    IsBlankRun [] ∧ IsBlankRun [' ', '\t'] ∧ [' ', '\t'] ≠ ([] : Text) ∧ IsSpacing [] ['\t'] ∧
    IsSpacing [([], "mov".toList)] [] ∧
    IsSpacing [([' '], "mov".toList), (['\t'], "r2".toList), ([' ', ' '], "3".toList), ([' '], "4".toList)] [' '] := by
  simp [IsToken, IsBlankRun, IsSpacing, isBlank]
theorem witness_DecimalLiteralsReadInBaseTen : IsDigits "007".toList ∧ decimalValue "007".toList = 7 ∧
    literalOf "-2097153".toList = some (-2097153) := ⟨⟨by simp, by simp⟩, by decide, by decide⟩
theorem witness_EncoderReportsTheFirstFailingCheck :
    (tokens "mov r1".toList).length ≠ 3 ∧ mnemonicOf "end".toList = none ∧ regOf "r8".toList = none ∧
    tokens "mov r1 x".toList = [Mnemonic.mov.spelling, regSpelling 1, "x".toList] ∧ literalOf "x".toList = none ∧
    literalOf "-2097153".toList = some (-2097153) := by decide
theorem witness_TextEncodesAsItsTriple :
    tokens "add r1 r0".toList = [Mnemonic.add.spelling, regSpelling 1, regSpelling 0] ∧
    tokens "mov r1 -2097152".toList = [Mnemonic.mov.spelling, regSpelling 1, "-2097152".toList] ∧
    literalOf "-2097152".toList = some (-2 ^ 21) := by decide
theorem witness_InstructionsDoNotDependOnTheTables :
    tables.Valid ∧ (∀ w, Entry.triple .mov 1 (.imm 5) ≠ .word w) ∧
    (Entry.triple .mov 1 (.imm 5)).encode tables = .ok 0x09000005 := ⟨tables_valid, by simp, by decide⟩
theorem witness_SourceValueIsImmediateOrRegister : (7 : Reg) ≠ 0 ∧ (one 7 (-3)).resolve (.reg 7 9) = -3 := by decide
theorem witness_DivWritesTheWrappedFloor : (one 1 (-7)).resolve (.imm 2) ≠ 0 := by decide
theorem witness_DivisionByZeroSkipsTheWrite :
    (one 1 100).resolve (.imm 0) = 0 ∧ (one 1 100).resolve (.reg 6 0) = 0 ∧
    (answered (exec (.div 1 (.reg 6 0)) (one 1 100))).map (fun t => decide (.divZero 0 ∈ t.trace)) = some true := by decide
theorem witness_QuotientRoundsTowardNegativeInfinity :
    ((2 : Word) ≠ 0 ∧ ¬ ((-7 : Word).toInt = -2 ^ 31 ∧ (2 : Word).toInt = -1)) ∧ (one 1 5).resolve (.reg 2 0) = 0 := by decide
theorem witness_DivisionOverflowKeepsTheTarget :
    ((one 1 (-2147483648)).read 1).toInt = -2 ^ 31 ∧ ((one 1 (-2147483648)).resolve (.imm (-1))).toInt = -1 := by decide
theorem witness_SameRegisterReadsBeforeTheWrite : (3 : Reg) ≠ 0 ∧ (one 3 8).read 3 ≠ 0 ∧ (one 3 0).read 3 = 0 := by decide

/-- A running state whose next entry is an instruction, with its step. -/
def running : State := State.load [.word 0x0A000022, .sentinel]

theorem running_runs : RunsAt running.prog running.pc 0x0A000022 (.mov 2 (.imm 34)) :=
  ⟨.word 0x0A000022, rfl, rfl, rfl, by decide⟩

theorem running_inv : Inv running where
  bounded := by decide
  pc_le := by decide
  instret_eq := by decide
  cycles_eq := by decide
  rows_eq := by decide
  ordered := by decide
  index_lt := by simp [running]
  reports := by simp [running]
  unwritten := fun r _ => (by decide : ∀ r : Reg, (State.load []).read r = 0) r
  status := trivial

theorem running_step : ∃ t, step running = .next t ∧ t.status = .running ∧ t.pc = 1 := ⟨_, rfl, rfl, rfl⟩

theorem witness_InstructionsTouchOnlyTheirRegisters : (∃ t, exec (.div 1 (.imm 0)) (one 1 5) = .next t) ∧
    (one 1 5).resolve (.imm 0) = 0 ∧ running.status ≠ .halted := ⟨⟨_, rfl⟩, by decide, by decide⟩
theorem witness_RegisterZeroIsOrdinaryButNeverASource : (one 0 7).resolve (.imm 2) ≠ 0 := by decide
theorem witness_EveryInstructionAdvancesThePcByOne :
    (∃ t, exec (.mov 1 (.imm 1)) running = .next t) ∧ (∃ t, step running = .next t ∧ t.status = .running) ∧
    (∃ t, step (State.load []) = .next t ∧ t.status ≠ .running) ∧ HaltsAt (State.load []).prog 0 ∧
    FailsAt (State.load [.word 0]).prog 0 ⟨.decode, .word 0⟩ :=
  ⟨⟨_, rfl⟩, ⟨_, rfl, rfl⟩, ⟨_, rfl, by decide⟩, .inl rfl, ⟨.word 0, rfl, rfl, .inr ⟨0, rfl, by decide⟩⟩⟩
theorem witness_StepRunsTheDecodedInstruction : running.status = .running ∧ programWellFormed running.prog = true ∧
    RunsAt running.prog running.pc 0x0A000022 (.mov 2 (.imm 34)) := ⟨rfl, by decide, running_runs⟩
theorem witness_ExecutedInstructionsAreReported : (State.load [.text "div r1 0".toList]).status = .running ∧
    programWellFormed (State.load [.text "div r1 0".toList]).prog = true ∧
    (Entry.text "div r1 0".toList).isSentinel = false ∧
    (Entry.text "div r1 0".toList).encode tables = .ok 0x29000000 ∧ decode 0x29000000 = .ok (.div 1 (.imm 0)) ∧
    (State.load [.text "div r1 0".toList]).resolve (.imm 0) = 0 ∧ (State.load []).resolve (.imm 2) ≠ 0 := by decide
theorem witness_SentinelAndEndOfListHalt :
    (State.load [.sentinel]).status = .running ∧ programWellFormed (State.load [.sentinel]).prog = true ∧
    HaltsAt (State.load [.sentinel]).prog 0 ∧ HaltsAt [] 0 ∧
    (∃ t, step running = .next t ∧ HaltsAt t.prog t.pc ∧ t.instret ≠ 0 ∧ t.status = .running) ∧
    (State.load []).pc = (State.load []).prog.length :=
  ⟨rfl, by decide, .inr ⟨_, rfl, rfl⟩, .inl rfl, ⟨_, rfl, .inr ⟨.sentinel, rfl, rfl⟩, by decide, rfl⟩, rfl⟩

theorem sentinel_inv : Inv (State.load [.sentinel]) where
  bounded := by decide
  pc_le := by decide
  instret_eq := by decide
  cycles_eq := by decide
  rows_eq := by decide
  ordered := by decide
  index_lt := by simp
  reports := by simp
  unwritten := fun r _ => (by decide : ∀ r : Reg, (State.load []).read r = 0) r
  status := trivial

theorem witness_DegenerateProgramsFault : Inv (State.load [.sentinel]) ∧
    (State.load [.sentinel]).status = .running ∧ HaltsAt (State.load [.sentinel]).prog (State.load [.sentinel]).pc ∧
    (State.load [.sentinel]).instret = 0 ∧ programWellFormed [.sentinel] = true ∧ HaltsAt [.sentinel] 0 :=
  ⟨sentinel_inv, rfl, .inr ⟨_, rfl, rfl⟩, rfl, by decide, .inr ⟨_, rfl, rfl⟩⟩
theorem witness_EncoderAndDecoderErrorsAreFatal : (State.load [.word 0]).status = .running ∧
    programWellFormed (State.load [.word 0]).prog = true ∧
    FailsAt (State.load [.word 0]).prog 0 ⟨.decode, .word 0⟩ ∧
    FailsAt [.text "nop r1 0".toList] 0 ⟨.unknownMnemonic, .text "nop".toList⟩ ∧
    (Entry.triple .mov 1 (.imm 5)).encode tables = .ok 0x09000005 :=
  ⟨rfl, by decide, ⟨.word 0, rfl, rfl, .inr ⟨0, rfl, by decide⟩⟩,
    ⟨_, rfl, by decide, .inl (by decide)⟩, by decide⟩
theorem witness_NoStepLeavesAFaultedRun : (∃ t, step (State.load []) = .next t ∧
    t.status = .faulted .degenerateProgram .none 0) ∧ (∃ t, exec (.mov 1 (.imm 1)) running = .next t) ∧
    (∃ s : State, s.status = .halted) :=
  ⟨⟨_, rfl, rfl⟩, ⟨_, rfl⟩, ⟨State.mk State.reset.x 1 1 1 .halted [] [], rfl⟩⟩
theorem witness_StepIsAllOrNothing : (∃ t, step running = .next t) ∧ (∃ t, step (State.load [.word 0]) = .next t) :=
  ⟨⟨_, rfl⟩, ⟨_, rfl⟩⟩
theorem witness_ProgramIsImmutableAndTraceOnlyGrows : ∃ t, step running = .next t := ⟨_, rfl⟩
theorem witness_NoStepReadsTheTrace : ∃ t, step running = .next t := ⟨_, rfl⟩
theorem witness_ControlAndTimingIgnoreTheRegisters : ∃ t, step running = .next t := ⟨_, rfl⟩
theorem witness_ResetLeavesTheResetValues : (one 1 5).prog = [] := rfl
theorem witness_EveryStepKeepsTheRunInvariant : Inv running ∧ ∃ t, step running = .next t := ⟨running_inv, ⟨_, rfl⟩⟩
theorem witness_RunInvariantHoldsAtReset : programWellFormed [.sentinel] = true := by decide
/-- A program whose one instruction is the skipped division `div r1 0`. -/
def skipping : List Entry := [.word 0x29000000, .sentinel]

theorem skipping_runs {w : Word} {i : Instr} (h : RunsAt skipping 0 w i) : i = .div 1 (.imm 0) := by
  obtain ⟨e, he, _, hw, hd⟩ := h
  cases he
  cases hw
  have : decode 0x29000000 = .ok (.div 1 (.imm 0)) := by decide
  rw [this] at hd
  cases hd
  rfl

/-- Register 1 is the target of the skipped division only, register 3 of nothing. -/
theorem witness_UnwrittenRegistersReadZero : programWellFormed skipping = true ∧
    ∃ s, Host.Core.run Sys2Proof.core 1 (State.load skipping) = .next s ∧ s.pc = 1 ∧
      ∀ r : Reg, ∀ j w i, j < s.pc → RunsAt skipping j w i → i.target = r → i.mnemonic = .div ∧ .divZero j ∈ s.trace := by
  refine ⟨by decide, _, rfl, rfl, fun r j w i hj hi _ => ?_⟩
  obtain rfl : j = 0 := Nat.lt_one_iff.mp hj
  cases skipping_runs hi
  exact ⟨rfl, by decide⟩

/-- Nothing after entry 0 has the target 2; and in the second program entry 1, a skipped division, has the target 1. -/
theorem witness_RegistersHoldTheLatestWriteInProgramOrder :
    (programWellFormed running.prog = true ∧
      ∃ s, Host.Core.run Sys2Proof.core 1 (State.load running.prog) = .next s ∧ 0 < s.pc ∧
        ∀ m w i, 0 < m → m < s.pc → RunsAt running.prog m w i → i.target = 2 →
          i.mnemonic = .div ∧ .divZero m ∈ s.trace) ∧
    (programWellFormed [.word 0x09000005, .word 0x29000000] = true ∧
      ∃ s, Host.Core.run Sys2Proof.core 2 (State.load [.word 0x09000005, .word 0x29000000]) = .next s ∧ s.pc = 2 ∧
        .divZero 1 ∈ s.trace ∧ s.read 1 = 5) :=
  ⟨⟨by decide, _, rfl, by decide, fun m _ _ h1 h2 => absurd h2 (Nat.not_lt.mpr h1)⟩,
    ⟨by decide, _, rfl, rfl, by decide, by decide⟩⟩
theorem witness_CyclesAreTheWeightedInstructionCounts : Inv running := running_inv
theorem witness_CountersNeverWrapInARun : Inv running ∧ running.status = .running ∧
    RunsAt running.prog running.pc 0x0A000022 (.mov 2 (.imm 34)) := ⟨running_inv, rfl, running_runs⟩
theorem witness_EveryRunEndsWithinItsLengthPlusOne : running.status = .running ∧
    programWellFormed running.prog = true ∧ running.pc ≤ running.prog.length := by decide
theorem witness_RunStopsAtTheFirstStoppingEntry : programWellFormed running.prog = true ∧
    (∀ j, j < 1 → ∃ w i, RunsAt running.prog j w i) ∧ HaltsAt running.prog 1 ∧
    FailsAt [.word 0] 0 ⟨.decode, .word 0⟩ :=
  ⟨by decide, fun j hj => by
    obtain rfl : j = 0 := by omega
    exact ⟨_, _, running_runs⟩, .inr ⟨_, rfl, rfl⟩, ⟨.word 0, rfl, rfl, .inr ⟨0, rfl, by decide⟩⟩⟩
theorem witness_HaltedRunsDeliverFinalAndFaultedRunsOnlyTheFault :
    (∃ t, step running = .next t ∧ t.status = .running ∧ programWellFormed t.prog = true ∧ HaltsAt t.prog t.pc ∧
      t.instret ≠ 0) ∧ FailsAt (State.load [.word 0]).prog 0 ⟨.decode, .word 0⟩ :=
  ⟨⟨_, rfl, rfl, by decide, .inr ⟨.sentinel, rfl, rfl⟩, by decide⟩, ⟨.word 0, rfl, rfl, .inr ⟨0, rfl, by decide⟩⟩⟩
theorem witness_CpiIsRoundedToTwoDecimals : 0 < 7 ∧ cpiHundredths 15 7 = some 214 := by decide
theorem witness_WrappingCommutesExceptWithDivision : (Instr.mul 1 (.imm 2)).mnemonic ≠ .div ∧
    (one 1 5).x = (Vector.replicate 8 0 |>.set 1 (5 + 2 ^ 32)).map wrap32 := by
  refine ⟨by decide, Vector.ext fun k hk => ?_⟩
  rw [Vector.getElem_map]
  interval_cases k <;> rfl
theorem witness_MachinesAgreeWhileValuesStayInRange :
    (one 1 (-7)).x.map BitVec.toInt = (Vector.replicate 8 0).set 1 (-7) ∧
    unboundedResult (.div 1 (.imm 2)) ((Vector.replicate 8 0).set 1 (-7)) = some (-4) := by
  refine ⟨Vector.ext fun k hk => ?_, by decide⟩
  rw [Vector.getElem_map]
  interval_cases k <;> rfl

/-- Valid tables that are not the defaults: the opcode of `mov` is 31, the codes of `r1` to `r7` run downwards. -/
def otherTables : Tables where
  opc mn := match mn with
    | .mov => 31
    | .add => 0
    | .sub => 7
    | .mul => 16
    | .div => 1
  regcode r := BitVec.ofNat 3 (8 - r.val)

theorem otherTables_valid : otherTables.Valid where
  opc_inj a b h := by cases a <;> cases b <;> first | rfl | exact absurd h (by decide)
  regcode_inj := by decide
  regcode_zero := by decide

/-- The word of `mov r1 5` with those tables, and what a step with them leaves of it. -/
theorem test_step_at_other_tables :
    (answered (stepWith otherTables (State.load [.triple .mov 1 (.imm 5)]))).map (fun t => (t.read 1, t.trace)) =
      some (5, [.row 0 (some (.triple .mov 1 (.imm 5))) 0b11111_111_000_000000000000000000101 1]) := by decide

theorem witness_StepRunsTheDecodedInstructionAtAnyTables :
    otherTables.Valid ∧ (State.load [.triple .mov 1 (.imm 5)]).status = .running ∧
    programWellFormed [.triple .mov 1 (.imm 5)] = true ∧ (Entry.triple .mov 1 (.imm 5)).isSentinel = false ∧
    (Entry.triple .mov 1 (.imm 5)).encode otherTables = .ok 0xFF000005 ∧
    decodeWith otherTables 0xFF000005 = .ok (.mov 1 (.imm 5)) ∧
    decodeWith otherTables 0x10000000 = .error ⟨.decode, .word 0x10000000⟩ ∧
    (Entry.text "mov r9 0".toList).encode otherTables = .error ⟨.unknownRegister, .text "r9".toList⟩ :=
  ⟨otherTables_valid, by decide⟩
theorem witness_RunsDoNotDependOnTheTables : tables.Valid ∧ otherTables.Valid ∧
    (∀ w, .word w ∉ [Entry.triple .mov 1 (.imm 5)]) ∧
    ∃ t : State, Host.Core.run (coreWith otherTables) 1 (State.load [.triple .mov 1 (.imm 5)]) = .next t ∧ t.pc = 1 :=
  ⟨tables_valid, otherTables_valid, by simp, _, rfl, rfl⟩

end Sys2Proof.Tests
end

/-! Which registers an instruction reads and writes, how `pc` moves, and when a step goes on: the laws of the state
(10_state) and the obligations of that chapter. -/

namespace Sys2Proof.Machine

/-! ## The source operand (10_state R21, R22) -/

/-- The source value depends on the named register only, and on none when that is `r0`. -/
theorem resolve_congr {s s' : State} {src : Source}
    (h : ∀ r f, src = .reg r f → r ≠ 0 → s.read r = s'.read r) : s.resolve src = s'.resolve src := by
  cases src with
  | imm f => rfl
  | reg r f =>
    by_cases hr : r = 0
    · simp [State.resolve, hr]
    · rw [resolve_reg s f hr, resolve_reg s' f hr, h r f rfl hr]

/-- `r0` is never a source (10_state R21). -/
@[simp] theorem resolve_write_zero (s : State) (v : Word) (src : Source) :
    (s.write 0 v).resolve src = s.resolve src :=
  resolve_congr fun _ _ _ hr => read_write_other s v hr

/-! ## What an instruction writes, and what that depends on -/

/-- The written value depends on the source value and, but for `mov`, on the target (10_state R22). -/
theorem written_congr {i : Instr} {s s' : State} (hsrc : s.resolve i.source = s'.resolve i.source)
    (htgt : i.mnemonic ≠ .mov → s.read i.target = s'.read i.target) : written i s = written i s' := by
  cases i with
  | mov tgt src => exact congrArg some hsrc
  | add tgt src => exact congrArg some (congrArg₂ aluAdd (htgt nofun) hsrc)
  | sub tgt src => exact congrArg some (congrArg₂ aluSub (htgt nofun) hsrc)
  | mul tgt src => exact congrArg some (congrArg₂ aluMul (htgt nofun) hsrc)
  | div tgt src =>
    have ha : s.read tgt = s'.read tgt := htgt nofun
    have hv : s.resolve src = s'.resolve src := hsrc
    simp only [written, ha, hv]

/-- The registers after an instruction depend on the registers before it only. -/
theorem regsAfter_congr {s s' : State} (i : Instr) (h : s.x = s'.x) :
    regsAfter s i.target (written i s) = regsAfter s' i.target (written i s') := by
  have hread : ∀ r, s.read r = s'.read r := fun r => congrArg (·.get r) h
  rw [written_congr (resolve_congr fun r _ _ _ => hread r) fun _ => hread i.target]
  cases written i s' with
  | none => exact h
  | some v => exact congrArg (fun x : Vector Word 8 => x.set i.target.val v i.target.isLt) h

/-! ## The registers, `pc` and the status after an instruction -/

section Exec
variable {i : Instr} {s t : State}

theorem exec_x (h : exec i s = .next t) : t.x = regsAfter s i.target (written i s) := (exec_next_eq h).1

/-- Every executed instruction advances `pc` by one (10_state R24). -/
theorem exec_pc (h : exec i s = .next t) : t.pc = s.pc + 1 := by
  obtain ⟨-, hpc, -⟩ := exec_next_eq h
  exact hpc

/-- No instruction changes the status (10_state R27). -/
theorem exec_status (h : exec i s = .next t) : t.status = s.status := by
  obtain ⟨-, -, -, -, hst, -, -⟩ := exec_next_eq h
  exact hst

/-- A skipped division keeps the registers (42_arithmetic R110). -/
theorem exec_x_of_skipped (h : exec i s = .next t) (hw : written i s = none) : t.x = s.x := by
  rw [exec_x h, hw]
  rfl

/-- The registers after an instruction that writes `v`, read one by one. -/
theorem exec_read_of_written {v : Word} (h : exec i s = .next t) (hw : written i s = some v) (q : Reg) :
    t.read q = if q = i.target then v else s.read q := by
  have hx : t.x = (s.write i.target v).x := by rw [exec_x h, hw]; rfl
  rw [← read_write]
  exact congrArg (·.get q) hx

/-- The frame of an instruction's registers (10_state R22). -/
theorem exec_onlyRegister (h : exec i s = .next t) : OnlyRegister i.target s t := by
  intro q hq
  cases hw : written i s with
  | none => exact congrArg (·.get q) (exec_x_of_skipped h hw)
  | some v => rw [exec_read_of_written h hw, if_neg hq]

theorem exec_read_target (h : exec i s = .next t) :
    t.read i.target = (written i s).getD (s.read i.target) := by
  cases hw : written i s with
  | none => exact congrArg (·.get i.target) (exec_x_of_skipped h hw)
  | some v => rw [exec_read_of_written h hw, if_pos rfl, Option.getD_some]

end Exec

/-- Every instruction completes in every state, with what it writes, if anything, in its target. -/
theorem exists_exec_read_target (i : Instr) (s : State) :
    ∃ t, exec i s = .next t ∧ t.read i.target = (written i s).getD (s.read i.target) :=
  ⟨_, exec_eq i s, exec_read_target (exec_eq i s)⟩

/-- The value left in the target depends on the source value and, but for `mov`, on the target (10_state R22). -/
theorem exec_read_target_congr {i : Instr} {s s' t t' : State} (h : exec i s = .next t) (h' : exec i s' = .next t')
    (hsrc : s.resolve i.source = s'.resolve i.source)
    (htgt : i.mnemonic ≠ .mov → s.read i.target = s'.read i.target) : t.read i.target = t'.read i.target := by
  rw [exec_read_target h, exec_read_target h', ← written_congr hsrc htgt]
  cases hw : written i s with
  | some v => rfl
  | none =>
    have hdiv : i.mnemonic = .div := (written_eq_none.mp hw).1
    exact htgt (by simp [hdiv])

/-! ## The halt -/

/-- The halt as one equation: the status it leaves depends on `instret` and `pc` only. -/
theorem halt_eq (s : State) :
    s.halt = { s with status := if s.instret = 0 then .faulted .degenerateProgram .none s.pc else .halted } := by
  obtain ⟨h, heq⟩ | ⟨h, heq⟩ := halt_cases s
  · rw [heq, if_pos h]
    rfl
  · rw [heq, if_neg h]

@[simp] theorem halt_pc (s : State) : s.halt.pc = s.pc := by rw [halt_eq]

theorem halt_status_ne_running (s : State) : s.halt.status ≠ .running := by
  obtain ⟨-, heq⟩ | ⟨-, heq⟩ := halt_cases s
  · rw [heq]
    exact nofun
  · rw [heq]
    exact nofun

/-! ## The step (43_sequencing R120) -/

/-- A step of a running machine, of a program within the bound, is the sequencer's. -/
theorem step_running {s : State} (hst : s.status = .running) (hwf : programWellFormed s.prog = true) :
    step s = s.sequence tables exec := by
  simp [step, State.stepRun, hst, hwf]

theorem step_of_haltsAt {s : State} (hst : s.status = .running) (hwf : programWellFormed s.prog = true)
    (h : HaltsAt s.prog s.pc) : step s = .next s.halt := by
  rw [step_running hst hwf]
  obtain hend | ⟨e, he, hs⟩ := h
  · simp [State.sequence, State.fetch, hend]
  · simp [State.sequence, State.fetch, he, State.runEntry, hs]

theorem step_of_failsAt {s : State} {d : Diag} (hst : s.status = .running) (hwf : programWellFormed s.prog = true)
    (h : FailsAt s.prog s.pc d) : step s = .next (s.raise d.kind d.token) := by
  rw [step_running hst hwf]
  obtain ⟨e, he, hs, henc | ⟨w, henc, hdec⟩⟩ := h
  · simp [State.sequence, State.fetch, he, State.runEntry, hs, henc]
  · have hdec : decodeWith tables w = .error d := hdec
    simp [State.sequence, State.fetch, he, State.runEntry, hs, henc, State.runWord, hdec]

/-- A step that answers a next state was taken while running, and halted, took an error, or ran an instruction. -/
theorem step_next_cases {s t : State} (h : step s = .next t) :
    s.status = .running ∧ programWellFormed s.prog = true ∧
      ((HaltsAt s.prog s.pc ∧ t = s.halt) ∨
       (∃ d, FailsAt s.prog s.pc d ∧ t = s.raise d.kind d.token) ∨
       ∃ w i, RunsAt s.prog s.pc w i ∧ exec i s = .next t) := by
  have hstep {o : Host.Outcome State Fault Refusal} (ho : s.stepRun tables exec = o) : o = .next t := ho.symm.trans h
  have next_inj {u : State} (hu : s.stepRun tables exec = .next u) : t = u := by cases hstep hu; rfl
  obtain ⟨-, ho | ho⟩ | ⟨-, -, ho⟩ | ⟨hst, hwf, hcases⟩ := step_cases s tables exec
  · cases hstep ho
  · cases hstep ho
  · cases hstep ho
  refine ⟨hst, hwf, ?_⟩
  obtain ⟨-, -, ho⟩ | ⟨-, hpc, ho⟩ | ⟨e, he, ⟨hs, ho⟩ | ⟨hs, hcases⟩⟩ := hcases
  · cases hstep ho
  · exact .inl ⟨.inl hpc, next_inj ho⟩
  · exact .inl ⟨.inr ⟨e, he, hs⟩, next_inj ho⟩
  obtain ⟨d, henc, ho⟩ | ⟨w, henc, ⟨d, hdec, ho⟩ | ⟨i, hdec, ho⟩⟩ := hcases
  · exact .inr (.inl ⟨d, ⟨e, he, hs, .inl henc⟩, next_inj ho⟩)
  · exact .inr (.inl ⟨d, ⟨e, he, hs, .inr ⟨w, henc, hdec⟩⟩, next_inj ho⟩)
  · exact .inr (.inr ⟨w, i, ⟨e, he, hs, henc, hdec⟩, hstep ho⟩)

/-- A step that goes on has advanced `pc` by one; one that ends the run has left it (43_sequencing R128). -/
theorem step_pc {s t : State} (h : step s = .next t) :
    (t.status = .running → t.pc = s.pc + 1) ∧ (t.status ≠ .running → t.pc = s.pc) := by
  obtain ⟨hst, -, ⟨-, rfl⟩ | ⟨d, -, rfl⟩ | ⟨w, i, -, hexec⟩⟩ := step_next_cases h
  · exact ⟨fun hrun => absurd hrun (halt_status_ne_running s), fun _ => halt_pc s⟩
  · exact ⟨nofun, fun _ => rfl⟩
  · exact ⟨fun _ => exec_pc hexec, fun hstop => absurd ((exec_status hexec).trans hst) hstop⟩

end Sys2Proof.Machine

namespace Sys2Proof

/-- What a word of an assigned opcode and a register's code decodes to, for valid tables. -/
theorem decodeWith_wordOfFields {T : Tables} (hT : T.Valid) (mn : Mnemonic) (tgt : Reg) (c : BitVec 3)
    (f : ImmField) : decodeWith T (wordOfFields (T.opc mn) (T.regcode tgt) c f) =
      .ok (Instr.make mn tgt (sourceOfFields T c f)) := by
  simp [decodeWith, opcInv_opc hT, regnum_regcode hT]

/-- An instruction written with `r0` as operand 2 has the word of the immediate 0 (30_encoding R58). -/
theorem pack_reg_zero {T : Tables} (hT : T.Valid) (mn : Mnemonic) (tgt : Reg) :
    pack T mn tgt (.reg 0) = some (wordOfFields (T.opc mn) (T.regcode tgt) 0 0) := by
  simp [pack, hT.regcode_zero]

end Sys2Proof

section
open Sys2Proof Sys2Proof.Machine

/-- Settles O28: the frame of `exec`, the congruence of the written value, and the halt's one equation. -/
theorem instructionsTouchOnlyTheirRegisters : Obligations.InstructionsTouchOnlyTheirRegisters := by
  refine ⟨fun i s t h => ⟨exec_onlyRegister h, fun hdiv hzero => ?_⟩, fun i s s' t t' h h' hsrc htgt => ?_,
    fun s v => ?_, fun s v hst => ?_⟩
  · exact exec_x_of_skipped h (written_eq_none.mpr ⟨hdiv, hzero⟩)
  · exact exec_read_target_congr h h' (resolve_congr hsrc) htgt
  · rw [halt_eq, halt_eq]
  · cases hs : s.status with
    | halted => exact absurd hs hst
    | running => simp [State.output, hs]
    | faulted kind token k => simp [State.output, hs]

/-- Settles O29: each instruction's written value at the target `r0`, and the word of `r0` as operand 2, which decodes
to the immediate 0. -/
theorem registerZeroIsOrdinaryButNeverASource : Obligations.RegisterZeroIsOrdinaryButNeverASource := by
  refine ⟨read_write_same, fun src s => ?_, fun mn tgt => ?_, resolve_write_zero⟩
  · obtain ⟨t₁, hmov, r₁⟩ := exists_exec_read_target (.mov 0 src) s
    obtain ⟨t₂, hadd, r₂⟩ := exists_exec_read_target (.add 0 src) s
    obtain ⟨t₃, hsub, r₃⟩ := exists_exec_read_target (.sub 0 src) s
    obtain ⟨t₄, hmul, r₄⟩ := exists_exec_read_target (.mul 0 src) s
    obtain ⟨t₅, hdiv, r₅⟩ := exists_exec_read_target (.div 0 src) s
    refine ⟨t₁, t₂, t₃, t₄, t₅, hmov, r₁, hadd, r₂, hsub, r₃, hmul, r₄, hdiv, fun hv => ?_⟩
    have hw : written (.div 0 src) s = some (aluDiv (s.read 0) (s.resolve src)) := if_neg hv
    rw [hw] at r₅
    exact r₅
  · refine ⟨_, _, pack_reg_zero tables_valid mn tgt, decodeWith_wordOfFields tables_valid mn tgt 0 0,
      mnemonic_make .., target_make .., fun s => ?_⟩
    rw [source_make]
    rfl

/-- Settles O30: `exec`'s advance and its independence of `pc`, and `pc` after each kind of step. -/
theorem everyInstructionAdvancesThePcByOne : Obligations.EveryInstructionAdvancesThePcByOne := by
  refine ⟨fun i s => ⟨_, exec_eq i s, rfl⟩, fun i s t k h => ?_, fun s t h => step_pc h,
    fun s hst hwf h => ⟨_, step_of_haltsAt hst hwf h, halt_pc s⟩,
    fun s d hst hwf h => ⟨_, step_of_failsAt hst hwf h, rfl⟩⟩
  obtain ⟨hx, -, hcyc, hins, hstat, -, -⟩ := exec_next_eq h
  exact ⟨_, exec_eq _ _, (regsAfter_congr i rfl).trans hx.symm, hcyc.symm, hins.symm, hstat.symm⟩

/-- Settles O37: the step's guard on the status, and reset as the start of a run of the same program. -/
theorem noStepLeavesAFaultedRun : Obligations.NoStepLeavesAFaultedRun := by
  refine ⟨fun s kind token k h => ?_, fun s h => ?_, fun i s t h => exec_status h, fun s => ⟨rfl, rfl⟩⟩
  · simp only [step, State.stepRun, h]
  · simp only [step, State.stepRun, h]

end

/-! The fields of a word the encoder produces, the unused immediate field, the sentinel, and the text of a word: the
laws of the encoding (30_encoding) and the obligations of that chapter. -/

namespace Sys2Proof

/-! ## The encoder's pack stage (40_encode_decode R80 to R84) -/

/-- The two clauses of 30_encoding R56 are one reading modulo `2^21`. -/
theorem packImm_of_ge {v : Int} (h : -2 ^ 21 ≤ v) : packImm v = some (BitVec.ofInt 21 v) := by
  have key {n : Nat} (hn : (n : Int) % 2 ^ 21 = v % 2 ^ 21) : BitVec.ofNat 21 n = BitVec.ofInt 21 v := by
    apply BitVec.eq_of_toNat_eq
    simp only [BitVec.toNat_ofNat, BitVec.toNat_ofInt]
    omega
  by_cases hv : 0 ≤ v
  · rw [packImm, if_pos hv, key (by omega)]
  · rw [packImm, if_neg hv, if_pos h, key (by omega)]

theorem pack_reg (T : Tables) (mn : Mnemonic) (tgt r : Reg) :
    pack T mn tgt (.reg r) = some (wordOfFields (T.opc mn) (T.regcode tgt) (T.regcode r) 0) := rfl

theorem pack_imm_of_ge (T : Tables) (mn : Mnemonic) (tgt : Reg) {v : Int} (h : -2 ^ 21 ≤ v) :
    pack T mn tgt (.imm v) = some (wordOfFields (T.opc mn) (T.regcode tgt) 0 (BitVec.ofInt 21 v)) := by
  simp only [pack, packImm_of_ge h]

/-- Every word the encoder produces has one of two forms (40_encode_decode R81, R82). -/
theorem pack_cases {T : Tables} {mn : Mnemonic} {tgt : Reg} {op2 : Op2} {w : Word}
    (h : pack T mn tgt op2 = some w) :
    (∃ r, op2 = .reg r ∧ w = wordOfFields (T.opc mn) (T.regcode tgt) (T.regcode r) 0) ∨
      (∃ v f, op2 = .imm v ∧ packImm v = some f ∧ w = wordOfFields (T.opc mn) (T.regcode tgt) 0 f) := by
  cases op2 with
  | reg r =>
    rw [pack_reg] at h
    cases h
    exact .inl ⟨r, rfl, rfl⟩
  | imm v =>
    cases hf : packImm v with
    | none => simp [pack, hf] at h
    | some f =>
      simp only [pack, hf] at h
      cases h
      exact .inr ⟨v, f, rfl, hf, rfl⟩

/-! ## Register-form words (30_encoding R58, R63) -/

/-- A word of an assigned opcode whose source field is not `000` decodes to the register form, whatever its immediate
field. -/
theorem decodeWith_registerForm {T : Tables} (hT : T.Valid) (mn : Mnemonic) (t : BitVec 3) {s : BitVec 3}
    (hs : s ≠ 0) (f : ImmField) : decodeWith T (wordOfFields (T.opc mn) t s f) =
      .ok (Instr.make mn (regnum T t) (.reg (regnum T s) f)) := by
  have h := decodeWith_wordOfFields hT mn (regnum T t) s f
  rwa [regcode_regnum hT, sourceOfFields, if_neg hs] at h

theorem regnum_ne_zero {T : Tables} (hT : T.Valid) {c : BitVec 3} (hc : c ≠ 0) : regnum T c ≠ 0 := by
  rwa [Ne, ← regcode_eq_zero hT, regcode_regnum hT]

/-! ## The sentinel (30_encoding R72) -/

theorem text_isSentinel (t : Text) : (Entry.text t).isSentinel = true ↔ tokens t = sentinelTokens :=
  beq_iff_eq

end Sys2Proof

namespace Sys2Proof.Machine

/-! ## The written value (43_sequencing R127) -/

/-- The written value depends on the source operand through its value only (43_sequencing R127). -/
theorem written_make_congr (mn : Mnemonic) (tgt : Reg) {src src' : Source} {s : State}
    (h : s.resolve src = s.resolve src') : written (Instr.make mn tgt src) s = written (Instr.make mn tgt src') s := by
  cases mn with
  | mov => exact congrArg some h
  | add => exact congrArg (fun v => some (aluAdd (s.read tgt) v)) h
  | sub => exact congrArg (fun v => some (aluSub (s.read tgt) v)) h
  | mul => exact congrArg (fun v => some (aluMul (s.read tgt) v)) h
  | div => simp only [Instr.make, written, h]

/-! ## Bit groups (30_encoding R68) -/

theorem binaryValue_concat (t : Text) (c : Char) :
    binaryValue (t ++ [c]) = 2 * binaryValue t + (if c = '1' then 1 else 0) := by
  simp [binaryValue]

/-- The leading `k` digits of a bit vector spell what is left of it when the other digits are shifted out. -/
theorem binaryValue_leadingBits {n : Nat} (v : BitVec n) {k : Nat} (hk : k ≤ n) :
    binaryValue ((List.range k).map fun j => if v.getMsbD j then '1' else '0') = v.toNat / 2 ^ (n - k) := by
  induction k with
  | zero => simp [binaryValue, Nat.div_eq_of_lt v.isLt]
  | succ k ih =>
    have hbit : v.getMsbD k = v.toNat.testBit (n - (k + 1)) := by
      rw [BitVec.getMsbD_eq_getLsbD, BitVec.getLsbD, Nat.sub_sub, Nat.add_comm 1 k]
      simp [Nat.lt_of_succ_le hk]
    have hshift : v.toNat / 2 ^ (n - k) = v.toNat / 2 ^ (n - (k + 1)) / 2 := by
      rw [Nat.div_div_eq_div_mul, ← Nat.pow_succ, show n - k = n - (k + 1) + 1 by omega]
    rw [List.range_succ, List.map_append, List.map_singleton, binaryValue_concat, ih (Nat.le_of_succ_le hk), hbit,
      hshift, Nat.testBit_eq_decide_div_mod_eq]
    by_cases h : v.toNat / 2 ^ (n - (k + 1)) % 2 = 1
    · simp only [h, decide_true, if_true]
      omega
    · simp only [h, decide_false, Bool.false_eq_true, if_false, Char.reduceEq]
      omega

theorem bitsOf_spellsBits (n : Nat) (v : BitVec n) : SpellsBits (bitsOf n v) n v.toNat := by
  refine ⟨by simp [bitsOf], fun c hc => ?_, by simpa [bitsOf] using binaryValue_leadingBits v (Nat.le_refl n)⟩
  obtain ⟨k, -, rfl⟩ := List.mem_map.mp hc
  cases v.getMsbD k with
  | true => exact .inr rfl
  | false => exact .inl rfl

end Sys2Proof.Machine

section
open Sys2Proof Sys2Proof.Machine

/-- Settles O6: the two forms of a packed word and its fields, the immediate packed modulo `2^21`. -/
theorem encodedFieldsHoldTheOperands : Obligations.EncodedFieldsHoldTheOperands := by
  intro T hT mn tgt
  refine ⟨fun r => ⟨_, pack_reg T mn tgt r, ?_⟩, fun v hv => ⟨_, pack_imm_of_ge T mn tgt hv, ?_⟩, ?_,
    hT.regcode_zero, regcode_surjective hT⟩
  · simp
  · have hfield : ((BitVec.ofInt 21 v).toNat : Int) = v % 2 ^ 21 := by
      rw [BitVec.toNat_ofInt]
      omega
    simpa using hfield
  · rw [pack_reg_zero hT, pack_imm_of_ge T mn tgt (by decide)]
    rfl

/-- Settles O11: decoding of the register form, the encoder's two word forms, and the written value's dependence on
the source value alone. -/
theorem unusedImmediateFieldIsIgnored : Obligations.UnusedImmediateFieldIsIgnored := by
  intro T hT
  refine ⟨fun mn t s f hs => ?_, fun mn tgt op2 w hw hs => ?_, fun mn tgt r f g hr s => ?_⟩
  · exact ⟨regnum T s, regnum_ne_zero hT hs, regcode_regnum hT s, decodeWith_registerForm hT mn t hs f⟩
  · obtain ⟨r, -, rfl⟩ | ⟨v, f, -, -, rfl⟩ := pack_cases hw
    · exact immField_wordOfFields ..
    · exact absurd (sourceField_wordOfFields ..) hs
  · have hval : s.resolve (.reg r f) = s.resolve (.reg r g) := by rw [resolve_reg s f hr, resolve_reg s g hr]
    refine ⟨_, _, exec_eq _ s, exec_eq _ s, ?_, rfl, ?_, rfl, rfl, rfl, resolve_reg s f hr⟩
    · simp only [target_make, written_make_congr mn tgt hval]
    · simp only [mnemonic_make]

/-- Settles O34: the sentinel's tokens, and the halt's one equation at it and at the end of the list. -/
theorem sentinelAndEndOfListHalt : Obligations.SentinelAndEndOfListHalt := by
  refine ⟨⟨rfl, text_isSentinel, fun _ _ _ => rfl, fun _ => rfl, by decide, by decide, by decide⟩,
    fun s hst hwf h => ⟨s.halt, step_of_haltsAt hst hwf h, ?_⟩, fun s h => ?_, ?_⟩
  · have hstop := halt_status_ne_running s
    rw [halt_eq] at hstop ⊢
    exact ⟨rfl, rfl, rfl, rfl, rfl, rfl, hstop, fun hexec => if_neg hexec⟩
  · exact List.getElem?_eq_none h.ge
  · exact ⟨_, step_of_haltsAt rfl (by decide) (.inl rfl), rfl⟩

/-- Settles O53: each group spells its field. -/
theorem wordTextIsTheFourBitGroups : Obligations.WordTextIsTheFourBitGroups :=
  ⟨fun _ => ⟨_, _, _, _, rfl, bitsOf_spellsBits _ _, bitsOf_spellsBits _ _, bitsOf_spellsBits _ _,
    bitsOf_spellsBits _ _⟩, 0x0A000022, by decide, by decide⟩

end

/-! Which words the decoder accepts, and what an instruction costs: the laws of the decoder and the cost table
(40_encode_decode) and the obligations of that chapter. -/

namespace Sys2Proof

/-! ## The decoder's domain (40_encode_decode R87, R88) -/

/-- Only the opcode field can make a word illegal. -/
theorem exists_decodeWith_ok_iff {T : Tables} {w : Word} :
    (∃ i, decodeWith T w = .ok i) ↔ ∃ mn, T.opc mn = opcodeField w := by
  obtain ⟨hnone, herr⟩ | ⟨mn, hsome, hok⟩ := decodeWith_cases T w
  · have hcode : ¬ ∃ mn, T.opc mn = opcodeField w := not_exists.mpr (opcInv_eq_none.mp hnone)
    simp [herr, hcode]
  · exact iff_of_true ⟨_, hok⟩ ⟨mn, opc_of_opcInv hsome⟩

/-- The source operand has the form its code selects (30_encoding R58), and a register form names the register with
that code. -/
theorem sourceOfFields_spec {T : Tables} (hT : T.Valid) (c : BitVec 3) (f : ImmField) :
    (c = 0 → sourceOfFields T c f = .imm f) ∧
      (c ≠ 0 → ∃ r, T.regcode r = c ∧ sourceOfFields T c f = .reg r f) :=
  ⟨fun hc => if_pos hc, fun hc => ⟨regnum T c, regcode_regnum hT c, if_neg hc⟩⟩

end Sys2Proof

namespace Sys2Proof.Machine

/-! ## The cost of an instruction (40_encode_decode R91) -/

/-- Every instruction completes in every state and is charged its mnemonic's cost (43_sequencing R125). -/
theorem exists_exec_cycles (i : Instr) (s : State) :
    ∃ t, exec i s = .next t ∧ t.cycles = s.cycles + BitVec.ofNat 64 (cost i.mnemonic) :=
  ⟨_, exec_eq i s, rfl⟩

end Sys2Proof.Machine

section
open Sys2Proof Sys2Proof.Machine

/-- Settles O4: the decoder's two cases, its domain, and the fields of a word with an assigned code. -/
theorem onlyTheOpcodeFieldCanBeIllegal : Obligations.OnlyTheOpcodeFieldCanBeIllegal := by
  intro T hT
  refine ⟨fun w => ?_, fun w => exists_decodeWith_ok_iff, fun mn t s f => ?_⟩
  · obtain ⟨-, herr⟩ | ⟨mn, -, hok⟩ := decodeWith_cases T w
    · exact .inr herr
    · exact .inl ⟨_, hok⟩
  · obtain ⟨tgt, rfl⟩ := regcode_surjective hT t
    refine ⟨_, decodeWith_wordOfFields hT mn tgt s f, mnemonic_make .., by rw [target_make], ?_⟩
    rw [source_make]
    exact sourceOfFields_spec hT s f

/-- Settles O31: the charge of each mnemonic, read off the cost table. -/
theorem cyclesGrowByTheOpcodesCost : Obligations.CyclesGrowByTheOpcodesCost := fun tgt src s =>
  ⟨exists_exec_cycles (.mov tgt src) s, exists_exec_cycles (.add tgt src) s, exists_exec_cycles (.sub tgt src) s,
    exists_exec_cycles (.mul tgt src) s, exists_exec_cycles (.div tgt src) s⟩

end

/-! When a division writes nothing and what it reports, and how its quotient rounds: the laws of the division
(42_arithmetic) and the obligations of that chapter's division. -/

namespace Sys2Proof.Machine

/-! ## The skipped division (42_arithmetic R110) -/

theorem exec_trace {i : Instr} {s t : State} (h : exec i s = .next t) :
    t.trace = s.trace ++ s.rowOf i :: diagnostics s (written i s) := by
  obtain ⟨-, -, -, -, -, -, htrace⟩ := exec_next_eq h
  exact htrace

theorem written_div_of_zero (tgt : Reg) {src : Source} {s : State} (h : s.resolve src = 0) :
    written (.div tgt src) s = none :=
  written_eq_none.mpr ⟨rfl, h⟩

theorem mem_diagnostics {s : State} {v : Option Word} {e : Event} :
    e ∈ diagnostics s v ↔ v = none ∧ e = .divZero s.pc := by
  cases v with
  | none => simp [diagnostics]
  | some v => simp [diagnostics]

/-- An instruction adds a `DivZero` to the trace only when it writes nothing, and then its own index's. -/
theorem exec_divZero_of_not_mem {i : Instr} {s t : State} {k : Nat} (h : exec i s = .next t)
    (hnew : .divZero k ∈ t.trace) (hold : .divZero k ∉ s.trace) : k = s.pc ∧ written i s = none := by
  have hrow : Event.divZero k ≠ s.rowOf i := nofun
  rw [exec_trace h, List.mem_append, List.mem_cons, mem_diagnostics] at hnew
  obtain hmem | heq | ⟨hw, heq⟩ := hnew
  · exact absurd hmem hold
  · exact absurd heq hrow
  · exact ⟨Event.divZero.inj heq, hw⟩

/-! ## Floor division on the integers (42_arithmetic R112) -/

/-- The remainder of floor division lies between 0 and the divisor. -/
theorem fmod_range (a : Int) {b : Int} (hb : b ≠ 0) :
    (0 < b ∧ 0 ≤ a.fmod b ∧ a.fmod b < b) ∨ (b < 0 ∧ b < a.fmod b ∧ a.fmod b ≤ 0) := by
  obtain hneg | hpos := Int.lt_or_gt_of_ne hb
  · have hneg' : 0 < -b := Int.neg_pos_of_neg hneg
    have hlo := Int.fmod_nonneg_of_pos (-a) hneg'
    have hhi := Int.fmod_lt_of_pos (-a) hneg'
    rw [Int.neg_fmod_neg] at hlo hhi
    exact .inr ⟨hneg, by omega, by omega⟩
  · exact .inl ⟨hpos, Int.fmod_nonneg_of_pos a hpos, Int.fmod_lt_of_pos a hpos⟩

theorem sign_fmod (a : Int) {b : Int} (hb : b ≠ 0) (hr : a.fmod b ≠ 0) : (a.fmod b).sign = b.sign := by
  obtain ⟨hpos, hlo, -⟩ | ⟨hneg, -, hhi⟩ := fmod_range a hb
  · rw [Int.sign_eq_one_of_pos hpos, Int.sign_eq_one_of_pos (by omega)]
  · rw [Int.sign_eq_neg_one_of_neg hneg, Int.sign_eq_neg_one_of_neg (by omega)]

theorem abs_fmod_lt (a : Int) {b : Int} (hb : b ≠ 0) : |a.fmod b| < |b| := by
  obtain ⟨hpos, hlo, hhi⟩ | ⟨hneg, hlo, hhi⟩ := fmod_range a hb
  · rwa [abs_of_nonneg hlo, abs_of_pos hpos]
  · rw [abs_of_nonpos hhi, abs_of_neg hneg]
    exact Int.neg_lt_neg hlo

/-- Floor and truncation agree where the division is exact. -/
theorem fdiv_eq_tdiv_of_exact {a b : Int} (hr : a.fmod b = 0) : a.fdiv b = a.tdiv b := by
  rw [Int.fdiv_eq_tdiv, if_pos (Int.dvd_of_fmod_eq_zero hr), Int.sub_zero]

/-- Where the division is inexact, the floor is one less than the truncated quotient when the signs differ. -/
theorem fdiv_eq_tdiv_of_inexact {a b : Int} (hb : b ≠ 0) (hr : a.fmod b ≠ 0) :
    a.fdiv b = a.tdiv b - if a.sign = b.sign then 0 else 1 := by
  have ha : a ≠ 0 := fun h => hr (by rw [h, Int.zero_fmod])
  rw [Int.fdiv_eq_tdiv, if_neg fun h => hr (Int.fmod_eq_zero_of_dvd h)]
  obtain ha | ha := Int.lt_or_gt_of_ne ha
  · obtain hb | hb := Int.lt_or_gt_of_ne hb
    · simp [Int.not_le.mpr ha, Int.not_le.mpr hb, Int.sign_eq_neg_one_of_neg ha, Int.sign_eq_neg_one_of_neg hb]
    · simp [Int.not_le.mpr ha, hb.le, Int.sign_eq_neg_one_of_neg ha, Int.sign_eq_one_of_pos hb]
  · obtain hb | hb := Int.lt_or_gt_of_ne hb
    · simp [ha.le, Int.not_le.mpr hb, Int.sign_eq_one_of_pos ha, Int.sign_eq_neg_one_of_neg hb]
    · simp [ha.le, hb.le, Int.sign_eq_one_of_pos ha, Int.sign_eq_one_of_pos hb]

/-- The floor of two values in the signed range leaves that range only as `-2^31 / -1`. -/
theorem fdiv_range {a b : Int} (hlo : -2 ^ 31 ≤ a) (hhi : a < 2 ^ 31) (hb : b ≠ 0)
    (hover : ¬ (a = -2 ^ 31 ∧ b = -1)) : -2 ^ 31 ≤ a.fdiv b ∧ a.fdiv b < 2 ^ 31 := by
  have hsize := Int.natAbs_fdiv_le_natAbs a b
  have hne : a.fdiv b ≠ 2 ^ 31 := by
    intro hq
    have hdiv := Int.mul_fdiv_add_fmod a b
    have hrem := fmod_range a hb
    rw [hq] at hdiv hsize
    omega
  omega

/-! ## The quotient of `div` (42_arithmetic R112) -/

/-- Outside the one overflow the quotient is the floor, as a number. -/
theorem aluDiv_toInt {a b : Word} (hb : b ≠ 0) (hover : ¬ (a.toInt = -2 ^ 31 ∧ b.toInt = -1)) :
    (aluDiv a b).toInt = a.toInt.fdiv b.toInt := by
  obtain ⟨hlo, hhi⟩ := fdiv_range a.le_toInt a.toInt_lt (BitVec.toInt_ne.mpr hb) hover
  exact wrap32_toInt hlo hhi

/-- What the quotient leaves over is the remainder of floor division. -/
theorem sub_aluDiv_mul {a b : Word} (hb : b ≠ 0) (hover : ¬ (a.toInt = -2 ^ 31 ∧ b.toInt = -1)) :
    a.toInt - (aluDiv a b).toInt * b.toInt = a.toInt.fmod b.toInt := by
  rw [aluDiv_toInt hb hover, Int.fmod_def, Int.mul_comm]

end Sys2Proof.Machine

section
open Sys2Proof Sys2Proof.Machine

/-- Settles O23: `exec`'s one equation where nothing is written, and where a new `DivZero` can come from. -/
theorem divisionByZeroSkipsTheWrite : Obligations.DivisionByZeroSkipsTheWrite := by
  refine ⟨fun tgt src s hzero => ?_, fun s => ⟨rfl, fun r f hr hread => (resolve_reg s f hr).trans hread⟩,
    fun i s t k h hnew hold => ?_⟩
  · have hexec := exec_eq (.div tgt src) s
    have hw := written_div_of_zero tgt hzero
    refine ⟨_, hexec, exec_x_of_skipped hexec hw, rfl, rfl, rfl, rfl, rfl, ?_⟩
    rw [hw]
    rfl
  · obtain ⟨hpc, hw⟩ := exec_divZero_of_not_mem h hnew hold
    exact ⟨hpc, written_eq_none.mp hw⟩

/-- Settles O24: the quotient is the integers' floor division, whose remainder and relation to truncation are known;
the rule's table is evaluated; a skipped division keeps the registers. -/
theorem quotientRoundsTowardNegativeInfinity : Obligations.QuotientRoundsTowardNegativeInfinity := by
  refine ⟨fun a b hb hover => ?_, by decide,
    fun tgt src s t hzero h => exec_x_of_skipped h (written_div_of_zero tgt hzero)⟩
  have hb' : b.toInt ≠ 0 := BitVec.toInt_ne.mpr hb
  dsimp only
  rw [sub_aluDiv_mul hb hover, aluDiv_toInt hb hover]
  refine ⟨or_iff_not_imp_left.mpr (sign_fmod _ hb'), abs_fmod_lt _ hb', fun ⟨hr, hsign⟩ => ?_, fun hsame => ?_⟩
  · rw [fdiv_eq_tdiv_of_inexact hb' hr, if_neg hsign]
  · by_cases hr : a.toInt.fmod b.toInt = 0
    · exact fdiv_eq_tdiv_of_exact hr
    · have hsign : a.toInt.sign = b.toInt.sign := not_not.mp fun hne => hsame ⟨hr, hne⟩
      rw [fdiv_eq_tdiv_of_inexact hb' hr, if_pos hsign, Int.sub_zero]

end

/-! Which words the decoder gets from the encoder, what a step does at an entry that runs, a run before its first
instruction, and the register dump: the laws of the sequencer (43_sequencing) and the obligations of that chapter. -/

namespace Sys2Proof

/-! ## The word of a decoded instruction (40_encode_decode R86) -/

/-- The fields of a source operand read from a word are the word's. -/
theorem code_and_field_sourceOfFields {T : Tables} (hT : T.Valid) (c : BitVec 3) (f : ImmField) :
    (sourceOfFields T c f).code T = c ∧ (sourceOfFields T c f).field = f := by
  obtain ⟨himm, hreg⟩ := sourceOfFields_spec hT c f
  by_cases hc : c = 0
  · rw [himm hc]
    exact ⟨hc.symm, rfl⟩
  · obtain ⟨r, hr, hsrc⟩ := hreg hc
    rw [hsrc]
    exact ⟨hr, rfl⟩

/-- A legal word is the word of the instruction it decodes to. -/
theorem encodeWith_of_decodeWith {T : Tables} (hT : T.Valid) {w : Word} {i : Instr} (h : decodeWith T w = .ok i) :
    encodeWith T i = w := by
  obtain ⟨-, herr⟩ | ⟨mn, hmn, hok⟩ := decodeWith_cases T w
  · cases herr.symm.trans h
  · cases hok.symm.trans h
    obtain ⟨hcode, hfield⟩ := code_and_field_sourceOfFields hT (sourceField w) (immField w)
    rw [encodeWith, mnemonic_make, target_make, source_make, opc_of_opcInv hmn, regcode_regnum hT, hcode, hfield,
      wordOfFields_fields]

/-! ## What the encoder gives the decoder (43_sequencing R124) -/

/-- A text that encodes passed every check, and its word is packed from what its tokens spell. -/
theorem encodeText_ok {T : Tables} {t : Text} {w : Word} : encodeText T t = .ok w →
    ∃ m a b mn tgt op2, tokens t = [m, a, b] ∧ mnemonicOf m = some mn ∧ regOf a = some tgt ∧
      op2Of b = some op2 ∧ pack T mn tgt op2 = some w := by
  fun_cases encodeText T t with
  | case1 => exact nofun
  | case2 => exact nofun
  | case3 => exact nofun
  | case4 => exact nofun
  | case5 m a b ht mn hm tgt ha op2 hb w' hp =>
    rintro ⟨⟩
    exact ⟨m, a, b, mn, tgt, op2, ht, hm, ha, hb, hp⟩
  | case6 => exact nofun

theorem encodeTriple_ok {T : Tables} {mn : Mnemonic} {tgt : Reg} {op2 : Op2} {w : Word}
    (h : encodeTriple T mn tgt op2 = .ok w) : pack T mn tgt op2 = some w := by
  cases hp : pack T mn tgt op2 with
  | some w' =>
    simp only [encodeTriple, hp] at h
    cases h
    rfl
  | none => cases op2 <;> simp [encodeTriple, hp] at h

/-- The word of an entry that is not itself a word comes from the encoder's pack stage. -/
theorem exists_pack_of_encode {T : Tables} {e : Entry} {w : Word} (hne : ∀ v, e ≠ .word v)
    (h : e.encode T = .ok w) : ∃ mn tgt op2, pack T mn tgt op2 = some w := by
  cases e with
  | text t =>
    obtain ⟨-, -, -, mn, tgt, op2, -, -, -, -, hp⟩ := encodeText_ok h
    exact ⟨mn, tgt, op2, hp⟩
  | sentinel => cases h
  | triple mn tgt op2 => exact ⟨mn, tgt, op2, encodeTriple_ok h⟩
  | word v => exact absurd rfl (hne v)

/-- The decoder accepts every word the encoder packs. -/
theorem exists_decodeWith_of_pack {T : Tables} {mn : Mnemonic} {tgt : Reg} {op2 : Op2} {w : Word}
    (h : pack T mn tgt op2 = some w) : ∃ i, decodeWith T w = .ok i := by
  refine exists_decodeWith_ok_iff.mpr ⟨mn, ?_⟩
  obtain ⟨r, -, rfl⟩ | ⟨v, f, -, -, rfl⟩ := pack_cases h
  · exact (opcodeField_wordOfFields ..).symm
  · exact (opcodeField_wordOfFields ..).symm

/-! ## The text of a report row (43_sequencing R132) -/

theorem reported_of_ne_word {e : Entry} (h : ∀ v, e ≠ .word v) : e.reported = some e := by
  cases e with
  | text t => rfl
  | sentinel => rfl
  | triple mn tgt op2 => rfl
  | word v => exact absurd rfl (h v)

end Sys2Proof

namespace Sys2Proof.Machine

/-! ## A step at an entry that runs (43_sequencing R126, R127) -/

/-- At an entry that encodes and decodes, a step of a running machine is `exec` of its instruction. -/
theorem step_of_runsAt {s : State} {w : Word} {i : Instr} (hst : s.status = .running)
    (hwf : programWellFormed s.prog = true) (h : RunsAt s.prog s.pc w i) : step s = exec i s := by
  obtain ⟨e, he, hs, henc, hdec⟩ := h
  have hdec : decodeWith tables w = .ok i := hdec
  rw [step_running hst hwf]
  simp [State.sequence, State.fetch, he, State.runEntry, hs, henc, State.runWord, hdec]

/-- The row of the instruction a program's entry decodes to carries that entry's text and word. -/
theorem rowOf_eq {s : State} {e : Entry} {w : Word} {i : Instr} (he : s.prog[s.pc]? = some e)
    (hdec : decode w = .ok i) : s.rowOf i = .row s.pc e.reported w (cost i.mnemonic) := by
  have hw : encodeWith tables i = w := encodeWith_of_decodeWith tables_valid hdec
  have hfetch : s.fetch = some e := he
  rw [State.rowOf, State.rowWith, hw, hfetch, Option.bind_some]

/-- Only a division by zero has a diagnostic (43_sequencing R133). -/
theorem diagnostics_written (i : Instr) (s : State) : diagnostics s (written i s) =
    if i.mnemonic = .div ∧ s.resolve i.source = 0 then [.divZero s.pc] else [] := by
  rw [← if_congr written_eq_none rfl rfl]
  cases written i s with
  | none => rfl
  | some v => rfl

/-! ## A run before its first instruction (43_sequencing R137) -/

theorem halt_of_instret_eq_zero {s : State} (h : s.instret = 0) : s.halt = s.raise .degenerateProgram .none :=
  if_pos h

/-- Events report executed entries only, so a run that has executed nothing has emitted none. -/
theorem Inv.trace_eq_nil {s : State} (hinv : Inv s) (h : s.instret = 0) : s.trace = [] := by
  have hpc : s.pc = 0 := by simpa [h] using hinv.instret_eq.symm
  refine List.eq_nil_iff_forall_not_mem.mpr fun ev hev => ?_
  have hlt := hinv.index_lt ev hev
  omega

/-- Until something is executed every register holds its reset value (70_reset_and_hazards R162). -/
theorem Inv.read_eq_zero {s : State} (hinv : Inv s) (h : s.instret = 0) (r : Reg) : s.read r = 0 := by
  refine hinv.unwritten r fun ⟨k, text, w, c, i, hmem, _⟩ => ?_
  rw [hinv.trace_eq_nil h] at hmem
  cases hmem

/-! ## The register dump (43_sequencing R135) -/

theorem registersAreSpelt : RegistersAreSpelt := by
  unfold RegistersAreSpelt
  decide

/-- Line `r` of the dump is the line of register `r`. -/
theorem dump_getElem? (x : Vector Word 8) (r : Reg) : (dump x)[r.val]? = some (dumpLine x r) := by
  have hreg : allRegs[r.val]? = some r := by revert r; decide
  rw [dump, List.getElem?_map, hreg, Option.map_some]

end Sys2Proof.Machine

section
open Sys2Proof Sys2Proof.Machine

/-- Settles O33: the step is `exec` of the entry's instruction, whose row is the entry's and whose diagnostic is a
division by zero's. -/
theorem executedInstructionsAreReported : Obligations.ExecutedInstructionsAreReported := by
  intro s e w i hst hwf he hs henc hdec
  have hstep := (step_of_runsAt hst hwf ⟨e, he, hs, henc, hdec⟩).trans (exec_eq i s)
  refine ⟨_, hstep, fun hzero => ?_, fun hne => ?_, fun ⟨v, hv⟩ => hv ▸ rfl, reported_of_ne_word⟩
  · simp only [rowOf_eq he hdec, diagnostics_written, if_pos hzero]
  · simp only [rowOf_eq he hdec, diagnostics_written, if_neg hne]

/-- Settles O35: the halt with nothing executed takes the error and keeps the registers, which still hold 0. -/
theorem degenerateProgramsFault : Obligations.DegenerateProgramsFault := by
  refine ⟨fun s hinv hst hhalt hzero => ?_, fun p hwf hhalt => ?_, fun i s t h => exec_status h⟩
  · have hwf : programWellFormed s.prog = true := decide_eq_true hinv.bounded
    have hstep := step_of_haltsAt hst hwf hhalt
    rw [halt_of_instret_eq_zero hzero] at hstep
    exact ⟨_, hstep, rfl, rfl, hinv.read_eq_zero hzero⟩
  · exact ⟨_, step_of_haltsAt (load_status p) hwf hhalt, rfl⟩

/-- Settles O36: the step at a failing entry raises its error, and a word the encoder packs has an assigned opcode. -/
theorem encoderAndDecoderErrorsAreFatal : Obligations.EncoderAndDecoderErrorsAreFatal := by
  refine ⟨fun s d hst hwf h => step_of_failsAt hst hwf h, fun w => ⟨rfl, rfl⟩, fun e w hne henc => ?_⟩
  obtain ⟨mn, tgt, op2, hpack⟩ := exists_pack_of_encode hne henc
  exact exists_decodeWith_of_pack hpack

/-- Settles O52: line `r` of the dump is register `r`'s, whose digits spell its value. -/
theorem dumpListsTheEightRegistersInOrder : Obligations.DumpListsTheEightRegistersInOrder :=
  ⟨registersAreSpelt, fun x => ⟨rfl, fun r => ⟨_, dump_getElem? x r, rfl, rfl, bitsOf_spellsBits 32 (x.get r)⟩,
    by decide⟩⟩

end

/-! What a run keeps of its program, its diagnostics and the registers no entry has written: the laws of reset and of
the order of effects (70_reset_and_hazards) and the obligation of that chapter. -/

namespace Sys2Proof.Machine

/-! ## What an instruction keeps (70_reset_and_hazards R163, 42_arithmetic R110) -/

section Exec
variable {i : Instr} {s t : State}

theorem exec_prog (h : exec i s = .next t) : t.prog = s.prog := by
  obtain ⟨-, -, -, -, -, hprog, -⟩ := exec_next_eq h
  exact hprog

/-- Only executed entries have a diagnostic, and an instruction's is its own. -/
theorem exec_divZero_lt (h : exec i s = .next t) (hs : ∀ k, .divZero k ∈ s.trace → k < s.pc) :
    ∀ k, .divZero k ∈ t.trace → k < t.pc := by
  intro k hmem
  rw [exec_pc h]
  by_cases hold : .divZero k ∈ s.trace
  · exact Nat.lt_succ_of_lt (hs k hold)
  · obtain ⟨rfl, -⟩ := exec_divZero_of_not_mem h hmem hold
    exact Nat.lt_succ_self _

/-- A register reads as before an instruction that has another target, or that is reported as a skipped division. -/
theorem exec_read_of_target_skipped {r : Reg} (h : exec i s = .next t) (hold : .divZero s.pc ∉ s.trace)
    (hskip : i.target = r → .divZero s.pc ∈ t.trace) : t.read r = s.read r := by
  by_cases hr : i.target = r
  · obtain ⟨-, hw⟩ := exec_divZero_of_not_mem h (hskip hr) hold
    exact congrArg (·.get r) (exec_x_of_skipped h hw)
  · exact exec_onlyRegister h r (Ne.symm hr)

end Exec

/-! ## What a step changes, and what a run keeps -/

/-- A step that executes nothing changes the status only. -/
theorem step_status_or_exec {s t : State} (h : step s = .next t) :
    (∃ st, t = { s with status := st }) ∨ ∃ w i, RunsAt s.prog s.pc w i ∧ exec i s = .next t := by
  obtain ⟨-, -, ⟨-, rfl⟩ | ⟨d, -, rfl⟩ | hexec⟩ := step_next_cases h
  · exact .inl ⟨_, halt_eq s⟩
  · exact .inl ⟨_, rfl⟩
  · exact .inr hexec

/-- No step changes the program (70_reset_and_hazards R163). -/
theorem step_prog {s t : State} (h : step s = .next t) : t.prog = s.prog := by
  obtain ⟨st, rfl⟩ | ⟨w, i, -, hexec⟩ := step_status_or_exec h
  · rfl
  · exact exec_prog hexec

/-- What every step keeps holds in every state a run reaches. -/
theorem run_keeps {P : State → Prop} (hstep : ∀ s t, P s → step s = .next t → P t) {k : Nat} :
    ∀ {s t : State}, P s → Host.Core.run Sys2Proof.core k s = .next t → P t := by
  induction k with
  | zero =>
    intro s t hs h
    cases h
    exact hs
  | succ k ih =>
    intro s t hs h
    obtain ⟨u, hu, h⟩ := run_succ_inv h
    exact ih (hstep s u hs hu) h

theorem run_prog {k : Nat} {s t : State} (h : Host.Core.run Sys2Proof.core k s = .next t) : t.prog = s.prog :=
  run_keeps (P := fun u => u.prog = s.prog) (fun _ _ hu hstep => (step_prog hstep).trans hu) rfl h

/-! ## Registers that no executed entry has written (70_reset_and_hazards R162) -/

/-- The executed entries with the target `r` are divisions that were skipped. -/
def LeftAlone (r : Reg) (s : State) : Prop :=
  ∀ j w i, j < s.pc → RunsAt s.prog j w i → i.target = r → i.mnemonic = .div ∧ .divZero j ∈ s.trace

/-- A register left alone up to the end of an instruction was left alone before it. -/
theorem LeftAlone.before_exec {r : Reg} {i : Instr} {s t : State} (hr : LeftAlone r t) (h : exec i s = .next t) :
    LeftAlone r s := by
  intro j w i' hj hruns htgt
  have hjt : j < t.pc := exec_pc h ▸ Nat.lt_succ_of_lt hj
  obtain ⟨hdiv, hmem⟩ := hr j w i' hjt (exec_prog h ▸ hruns) htgt
  refine ⟨hdiv, by_contra fun hold => ?_⟩
  obtain ⟨rfl, -⟩ := exec_divZero_of_not_mem h hmem hold
  exact Nat.lt_irrefl _ hj

/-- The invariant behind R162: a register left alone reads 0. That diagnostics are of executed entries only makes the
one at `pc` tell whether the next instruction is skipped. -/
structure LeftAloneReadsZero (s : State) : Prop where
  divZero_lt : ∀ k, .divZero k ∈ s.trace → k < s.pc
  read_zero : ∀ r, LeftAlone r s → s.read r = 0

theorem leftAloneReadsZero_load (p : List Entry) : LeftAloneReadsZero (State.load p) where
  divZero_lt := by simp
  read_zero r _ := by simp [State.read, Vector.get_eq_getElem]

theorem LeftAloneReadsZero.after_exec {i : Instr} {w : Word} {s t : State} (hs : LeftAloneReadsZero s)
    (hruns : RunsAt s.prog s.pc w i) (h : exec i s = .next t) : LeftAloneReadsZero t where
  divZero_lt := exec_divZero_lt h hs.divZero_lt
  read_zero r hr := by
    have hold : .divZero s.pc ∉ s.trace := fun hmem => Nat.lt_irrefl _ (hs.divZero_lt _ hmem)
    have hskip : i.target = r → .divZero s.pc ∈ t.trace := fun htgt =>
      (hr s.pc w i (exec_pc h ▸ Nat.lt_succ_self _) (exec_prog h ▸ hruns) htgt).2
    calc t.read r = s.read r := exec_read_of_target_skipped h hold hskip
      _ = 0 := hs.read_zero r (hr.before_exec h)

theorem LeftAloneReadsZero.after_step {s t : State} (hs : LeftAloneReadsZero s) (h : step s = .next t) :
    LeftAloneReadsZero t := by
  obtain ⟨st, rfl⟩ | ⟨w, i, hruns, hexec⟩ := step_status_or_exec h
  · exact ⟨hs.divZero_lt, hs.read_zero⟩
  · exact hs.after_exec hruns hexec

end Sys2Proof.Machine

section
open Sys2Proof Sys2Proof.Machine

/-- Settles O45: registers left alone read 0 at the start of a run and after every step of it, of a program that stays
as loaded. -/
theorem unwrittenRegistersReadZero : Obligations.UnwrittenRegistersReadZero := by
  intro k p s _ hrun r hr
  have hprog : s.prog = p := run_prog hrun
  have hinv : LeftAloneReadsZero s := run_keeps (fun _ _ => .after_step) (leftAloneReadsZero_load p) hrun
  exact hinv.read_zero r fun j w i hj hruns => hr j w i hj (hprog ▸ hruns)

end

/-! The round trips of the encoder and the decoder, and what of an entry depends on the tables: the laws of the
encoding for valid tables (30_encoding, 40_encode_decode) and the obligations about them. -/

namespace Sys2Proof

open Machine

/-! ## The word of an instruction (40_encode_decode R86) -/

theorem wellFormed_make (mn : Mnemonic) (tgt : Reg) (src : Source) :
    WellFormed (Instr.make mn tgt src) = src.wellFormed := by
  rw [WellFormed, source_make]

/-- The code and the field of a well-formed source operand select that operand. -/
theorem sourceOfFields_code_field {T : Tables} (hT : T.Valid) {src : Source} (h : src.wellFormed = true) :
    sourceOfFields T (src.code T) src.field = src := by
  cases src with
  | imm f => rfl
  | reg r f =>
    have hr : r ≠ 0 := by simpa [Source.wellFormed] using h
    have hcode : T.regcode r ≠ 0 := fun hzero => hr ((regcode_eq_zero hT).mp hzero)
    rw [Source.code, Source.field, sourceOfFields, if_neg hcode, regnum_regcode hT]

theorem decodeWith_encodeWith {T : Tables} (hT : T.Valid) {i : Instr} (h : WellFormed i = true) :
    decodeWith T (encodeWith T i) = .ok i := by
  rw [encodeWith, decodeWith_wordOfFields hT, sourceOfFields_code_field hT h, make_eta]

/-- The decoder makes well-formed instructions only (30_encoding R58). -/
theorem wellFormed_of_decodeWith {T : Tables} (hT : T.Valid) {w : Word} {i : Instr} (h : decodeWith T w = .ok i) :
    WellFormed i = true := by
  obtain ⟨-, herr⟩ | ⟨mn, -, hok⟩ := decodeWith_cases T w
  · cases herr.symm.trans h
  cases hok.symm.trans h
  rw [wellFormed_make, sourceOfFields]
  split
  · rfl
  · next hc => exact bne_iff_ne.mpr (regnum_ne_zero hT hc)

/-! ## The immediate (30_encoding R56, R57) -/

/-- The packed immediate read as signed is the value modulo `2^21`. -/
theorem sext21_ofInt (v : Int) : sext21 (BitVec.ofInt 21 v) % 2 ^ 21 = v % 2 ^ 21 := by
  rw [sext21_eq_toInt, BitVec.toInt_ofInt]
  exact Int.bmod_emod

theorem sext21_ofInt_of_range {v : Int} (hlo : -2 ^ 20 ≤ v) (hhi : v < 2 ^ 20) : sext21 (BitVec.ofInt 21 v) = v := by
  have hmod := sext21_ofInt v
  have hrange := sext21_range (BitVec.ofInt 21 v)
  omega

/-! ## The instruction a triple stands for (40_encode_decode R93) -/

/-- The literals the encoder takes: from `-2^21` on (40_encode_decode R84). -/
def Op2.Encodable : Op2 → Prop
  | .reg _ => True
  | .imm v => -2 ^ 21 ≤ v

/-- The source operand the decoder makes of an operand: `r0` is the immediate 0 (30_encoding R58). -/
def Op2.decoded : Op2 → Source
  | .reg r => if r = 0 then .imm 0 else .reg r 0
  | .imm v => .imm (BitVec.ofInt 21 v)

theorem decoded_reg {r : Reg} (h : r ≠ 0) : (Op2.reg r).decoded = .reg r 0 := if_neg h

theorem wellFormed_decoded (op2 : Op2) : op2.decoded.wellFormed = true := by
  cases op2 with
  | imm v => rfl
  | reg r =>
    rw [Op2.decoded]
    split
    · rfl
    · next hr => exact bne_iff_ne.mpr hr

/-- The encoder packs the word of the instruction the triple stands for. -/
theorem pack_of_encodable {T : Tables} (hT : T.Valid) (mn : Mnemonic) (tgt : Reg) {op2 : Op2} (h : op2.Encodable) :
    pack T mn tgt op2 = some (encodeWith T (Instr.make mn tgt op2.decoded)) := by
  rw [encodeWith, mnemonic_make, target_make, source_make]
  cases op2 with
  | imm v => exact pack_imm_of_ge T mn tgt h
  | reg r =>
    by_cases hr : r = 0
    · rw [hr]
      exact pack_reg_zero hT mn tgt
    · rw [decoded_reg hr]
      rfl

theorem pack_of_not_encodable (T : Tables) (mn : Mnemonic) (tgt : Reg) {op2 : Op2} (h : ¬ op2.Encodable) :
    pack T mn tgt op2 = none := by
  cases op2 with
  | reg r => exact absurd trivial h
  | imm v =>
    have hv : v < -2 ^ 21 := Int.not_le.mp h
    have hnone : packImm v = none := by rw [packImm, if_neg (by omega), if_neg (by omega)]
    simp only [pack, hnone]

/-- What the encoder packs is the word of the instruction the triple stands for, which the decoder gives back. -/
theorem pack_eq_some {T : Tables} (hT : T.Valid) {mn : Mnemonic} {tgt : Reg} {op2 : Op2} {w : Word}
    (h : pack T mn tgt op2 = some w) : w = encodeWith T (Instr.make mn tgt op2.decoded) := by
  by_cases he : op2.Encodable
  · exact Option.some.inj (h.symm.trans (pack_of_encodable hT mn tgt he))
  · cases h.symm.trans (pack_of_not_encodable T mn tgt he)

theorem decodeWith_of_pack {T : Tables} (hT : T.Valid) {mn : Mnemonic} {tgt : Reg} {op2 : Op2} {w : Word}
    (h : pack T mn tgt op2 = some w) : decodeWith T w = .ok (Instr.make mn tgt op2.decoded) := by
  rw [pack_eq_some hT h]
  exact decodeWith_encodeWith hT (by rw [wellFormed_make, wellFormed_decoded])

/-- The operands that survive encoding exactly are told apart by what they decode to (30_encoding R67). -/
theorem decoded_injOn_exact {a b : Op2} (ha : ExactOperand a) (hb : ExactOperand b) (h : a.decoded = b.decoded) :
    a = b := by
  cases a with
  | reg r =>
    rw [decoded_reg ha] at h
    cases b with
    | reg q =>
      rw [decoded_reg hb] at h
      cases h
      rfl
    | imm v => cases h
  | imm v =>
    cases b with
    | reg q =>
      rw [decoded_reg hb] at h
      cases h
    | imm u =>
      have hfield : BitVec.ofInt 21 v = BitVec.ofInt 21 u := Source.imm.inj h
      rw [← sext21_ofInt_of_range ha.1 ha.2, ← sext21_ofInt_of_range hb.1 hb.2, hfield]

/-! ## Re-encoding a decoded instruction, and canonical words (40_encode_decode R93, 30_encoding R66) -/

theorem encodable_op2 (src : Source) : src.op2.Encodable := by
  cases src with
  | reg r f => trivial
  | imm f =>
    have hlo := f.le_toInt
    show -2 ^ 21 ≤ f.toInt
    omega

theorem decoded_op2_imm (f : ImmField) : (Source.imm f).op2.decoded = .imm f :=
  congrArg Source.imm BitVec.ofInt_toInt

/-- Re-encoding keeps the value of a well-formed source operand. -/
theorem resolve_decoded_op2 {src : Source} (h : src.wellFormed = true) (s : State) :
    s.resolve src.op2.decoded = s.resolve src := by
  cases src with
  | imm f => rw [decoded_op2_imm]
  | reg r f =>
    have hr : r ≠ 0 := bne_iff_ne.mp h
    rw [Source.op2, decoded_reg hr, resolve_reg s 0 hr, resolve_reg s f hr]

/-- The word of an instruction is canonical when re-encoding keeps its source operand; otherwise re-encoding clears the
immediate field. -/
theorem canonicalWord_encodeWith {T : Tables} (hT : T.Valid) {i : Instr} (h : WellFormed i = true) :
    (canonicalWord T (encodeWith T i) = true ∧ i.source.op2.decoded = i.source) ∨
      (canonicalWord T (encodeWith T i) = false ∧ i.source.op2.decoded.code T = i.source.code T ∧
        i.source.op2.decoded.field = 0) := by
  have hcanon : canonicalWord T (encodeWith T i) = (i.source.code T == 0 || i.source.field == 0) := by
    simp [canonicalWord, encodeWith, opcInv_opc hT]
  rw [hcanon]
  have hsrc : i.source.wellFormed = true := h
  cases hs : i.source with
  | imm f => exact .inl ⟨rfl, decoded_op2_imm f⟩
  | reg r f =>
    rw [hs] at hsrc
    have hr : r ≠ 0 := bne_iff_ne.mp hsrc
    rw [Source.op2, decoded_reg hr]
    by_cases hf : f = 0
    · exact .inl ⟨by simp [Source.field, hf], by rw [hf]⟩
    · have hcode : T.regcode r ≠ 0 := fun hzero => hr ((regcode_eq_zero hT).mp hzero)
      refine .inr ⟨?_, rfl, rfl⟩
      rw [Bool.or_eq_false_iff]
      exact ⟨beq_eq_false_iff_ne.mpr hcode, beq_eq_false_iff_ne.mpr hf⟩

/-! ## The checks of the encoder on a text, in order (30_encoding R78) -/

theorem encodeText_of_length_ne (T : Tables) {t : Text} (h : (tokens t).length ≠ 3) :
    encodeText T t = .error ⟨.malformedInstruction, .text t⟩ := by
  rw [encodeText]
  split
  · next m a b ht => exact absurd (congrArg List.length ht) h
  · rfl

section Checks
variable {T : Tables} {t m a b : Text} {mn : Mnemonic} {tgt : Reg} {op2 : Op2}

theorem encodeText_of_mnemonicOf_none (T : Tables) (ht : tokens t = [m, a, b]) (hm : mnemonicOf m = none) :
    encodeText T t = .error ⟨.unknownMnemonic, .text m⟩ := by
  simp only [encodeText, ht, hm]

theorem encodeText_of_regOf_none (T : Tables) (ht : tokens t = [m, a, b]) (hm : mnemonicOf m = some mn)
    (ha : regOf a = none) : encodeText T t = .error ⟨.unknownRegister, .text a⟩ := by
  simp only [encodeText, ht, hm, ha]

theorem encodeText_of_op2Of_none (T : Tables) (ht : tokens t = [m, a, b]) (hm : mnemonicOf m = some mn)
    (ha : regOf a = some tgt) (hb : op2Of b = none) : encodeText T t = .error ⟨.unknownRegister, .text b⟩ := by
  simp only [encodeText, ht, hm, ha, hb]

theorem encodeText_of_pack_none (ht : tokens t = [m, a, b]) (hm : mnemonicOf m = some mn) (ha : regOf a = some tgt)
    (hb : op2Of b = some op2) (hp : pack T mn tgt op2 = none) : encodeText T t = .error ⟨.encoding, .text b⟩ := by
  simp only [encodeText, ht, hm, ha, hb, hp]

theorem encodeText_of_pack_some {w : Word} (ht : tokens t = [m, a, b]) (hm : mnemonicOf m = some mn)
    (ha : regOf a = some tgt) (hb : op2Of b = some op2) (hp : pack T mn tgt op2 = some w) :
    encodeText T t = .ok w := by
  simp only [encodeText, ht, hm, ha, hb, hp]

end Checks

theorem encodeTriple_of_pack_none {T : Tables} {mn : Mnemonic} {tgt : Reg} {v : Int}
    (h : pack T mn tgt (.imm v) = none) : encodeTriple T mn tgt (.imm v) = .error ⟨.encoding, .value v⟩ := by
  simp only [encodeTriple, h]

theorem encodeTriple_of_pack_some {T : Tables} {mn : Mnemonic} {tgt : Reg} {op2 : Op2} {w : Word}
    (h : pack T mn tgt op2 = some w) : encodeTriple T mn tgt op2 = .ok w := by
  simp only [encodeTriple, h]

/-! ## What of an entry depends on the tables (92_eei_decisions D1, D2, D3) -/

/-- Whether the encoder fails, and how, does not depend on the tables; where it does not, the words decode alike. -/
def AgreesAt (T T' : Tables) (a b : Except Diag Word) : Prop :=
  (∃ d, a = .error d ∧ b = .error d) ∨
    ∃ w w' i, a = .ok w ∧ b = .ok w' ∧ decodeWith T w = .ok i ∧ decodeWith T' w' = .ok i

/-- The parse stage does not read the tables: it fails, or leaves a triple to pack. -/
theorem encodeText_parsed (t : Text) : (∃ d, ∀ T, encodeText T t = .error d) ∨
    ∃ b mn tgt op2, ∀ T, (pack T mn tgt op2 = none → encodeText T t = .error ⟨.encoding, .text b⟩) ∧
      ∀ w, pack T mn tgt op2 = some w → encodeText T t = .ok w := by
  by_cases hlen : (tokens t).length = 3
  · obtain ⟨m, a, b, ht⟩ := List.length_eq_three.mp hlen
    cases hm : mnemonicOf m with
    | none => exact .inl ⟨_, fun T => encodeText_of_mnemonicOf_none T ht hm⟩
    | some mn =>
      cases ha : regOf a with
      | none => exact .inl ⟨_, fun T => encodeText_of_regOf_none T ht hm ha⟩
      | some tgt =>
        cases hb : op2Of b with
        | none => exact .inl ⟨_, fun T => encodeText_of_op2Of_none T ht hm ha hb⟩
        | some op2 => exact .inr ⟨b, mn, tgt, op2, fun T =>
            ⟨encodeText_of_pack_none ht hm ha hb, fun _ => encodeText_of_pack_some ht hm ha hb⟩⟩
  · exact .inl ⟨_, fun T => encodeText_of_length_ne T hlen⟩

section Tables
variable {T T' : Tables} (hT : T.Valid) (hT' : T'.Valid)
include hT hT'

theorem pack_agrees (mn : Mnemonic) (tgt : Reg) (op2 : Op2) :
    (pack T mn tgt op2 = none ∧ pack T' mn tgt op2 = none) ∨
      ∃ w w' i, pack T mn tgt op2 = some w ∧ pack T' mn tgt op2 = some w' ∧
        decodeWith T w = .ok i ∧ decodeWith T' w' = .ok i := by
  by_cases h : op2.Encodable
  · have hp := pack_of_encodable hT mn tgt h
    have hp' := pack_of_encodable hT' mn tgt h
    exact .inr ⟨_, _, _, hp, hp', decodeWith_of_pack hT hp, decodeWith_of_pack hT' hp'⟩
  · exact .inl ⟨pack_of_not_encodable T mn tgt h, pack_of_not_encodable T' mn tgt h⟩

theorem encodeTriple_agrees (mn : Mnemonic) (tgt : Reg) (op2 : Op2) :
    AgreesAt T T' (encodeTriple T mn tgt op2) (encodeTriple T' mn tgt op2) := by
  obtain ⟨hp, hp'⟩ | ⟨w, w', i, hp, hp', hd, hd'⟩ := pack_agrees hT hT' mn tgt op2
  · cases op2 with
    | reg r => cases hp
    | imm v => exact .inl ⟨_, encodeTriple_of_pack_none hp, encodeTriple_of_pack_none hp'⟩
  · exact .inr ⟨w, w', i, encodeTriple_of_pack_some hp, encodeTriple_of_pack_some hp', hd, hd'⟩

theorem encodeText_agrees (t : Text) : AgreesAt T T' (encodeText T t) (encodeText T' t) := by
  obtain ⟨d, herr⟩ | ⟨b, mn, tgt, op2, hparsed⟩ := encodeText_parsed t
  · exact .inl ⟨d, herr T, herr T'⟩
  obtain ⟨hp, hp'⟩ | ⟨w, w', i, hp, hp', hd, hd'⟩ := pack_agrees hT hT' mn tgt op2
  · exact .inl ⟨_, (hparsed T).1 hp, (hparsed T').1 hp'⟩
  · exact .inr ⟨w, w', i, (hparsed T).2 w hp, (hparsed T').2 w' hp', hd, hd'⟩

theorem encode_agrees {e : Entry} (hne : ∀ w, e ≠ .word w) : AgreesAt T T' (e.encode T) (e.encode T') := by
  cases e with
  | text t => exact encodeText_agrees hT hT' t
  | sentinel => exact .inl ⟨_, rfl, rfl⟩
  | triple mn tgt op2 => exact encodeTriple_agrees hT hT' mn tgt op2
  | word w => exact absurd rfl (hne w)

end Tables

end Sys2Proof

section
open Sys2Proof Sys2Proof.Machine

/-- Settles O1: each word evaluated by the decoder. -/
theorem specWordsDecodeToTheirInstructions : Obligations.SpecWordsDecodeToTheirInstructions := by
  unfold Obligations.SpecWordsDecodeToTheirInstructions
  decide

/-- Settles O2: the fields of the instruction's word are looked up to its own operands. -/
theorem decodeRecoversEncodedInstruction : Obligations.DecodeRecoversEncodedInstruction :=
  fun _ hT _ h => decodeWith_encodeWith hT h

/-- Settles O3: a legal word is put together again from the codes of what its fields are looked up to. -/
theorem encodeRecoversDecodedWord : Obligations.EncodeRecoversDecodedWord :=
  fun _ hT _ _ h => ⟨encodeWith_of_decodeWith hT h, wellFormed_of_decodeWith hT h⟩

/-- Settles O5: the packed immediate is the value modulo `2^21`, and its signed reading lies in the signed range. -/
theorem immediateFieldRoundTrip : Obligations.ImmediateFieldRoundTrip := by
  refine ⟨fun v hlo hhi => ?_, fun v hlo hout => ?_, fun v hv => ?_⟩
  · exact ⟨_, packImm_of_ge (by omega), sext21_ofInt_of_range hlo hhi⟩
  · have hmod := sext21_ofInt v
    have hrange := sext21_range (BitVec.ofInt 21 v)
    exact ⟨_, (sext21 (BitVec.ofInt 21 v) - v) / 2 ^ 21, packImm_of_ge hlo, by omega, by omega⟩
  · rw [packImm, if_neg (by omega), if_neg (by omega)]

/-- Settles O7: what the encoder packs decodes to the instruction the triple stands for. -/
theorem decoderReadsBackTheTriple : Obligations.DecoderReadsBackTheTriple := by
  intro T hT mn tgt
  have key {op2 : Op2} (h : op2.Encodable) : ∃ w, pack T mn tgt op2 = some w ∧
      decodeWith T w = .ok (Instr.make mn tgt op2.decoded) :=
    ⟨_, pack_of_encodable hT mn tgt h, decodeWith_of_pack hT (pack_of_encodable hT mn tgt h)⟩
  refine ⟨fun r hr => ?_, key (op2 := .reg 0) trivial, fun v hv => ?_⟩
  · rw [← decoded_reg hr]
    exact key (op2 := .reg r) trivial
  · obtain ⟨w, hpack, hdec⟩ := key (op2 := .imm v) hv
    exact ⟨w, _, hpack, hdec, sext21_ofInt v, fun ⟨hlo, hhi⟩ => sext21_ofInt_of_range hlo hhi⟩

/-- Settles O8: a canonical word is what re-encoding its instruction packs, and a packed word has one of two forms. -/
theorem canonicalWordsAreTheEncoders : Obligations.CanonicalWordsAreTheEncoders := by
  intro T hT w
  constructor
  · intro hcanon
    obtain ⟨mn, hmn⟩ : ∃ mn, T.opc mn = opcodeField w := by
      by_contra hne
      simp [canonicalWord, opcInv_eq_none.mpr (not_exists.mp hne)] at hcanon
    obtain ⟨i, hi⟩ := exists_decodeWith_ok_iff.mpr ⟨mn, hmn⟩
    obtain ⟨-, hsame⟩ | ⟨hnot, -⟩ := canonicalWord_encodeWith hT (wellFormed_of_decodeWith hT hi)
    · refine ⟨i.mnemonic, i.target, i.source.op2, ?_⟩
      rw [pack_of_encodable hT _ _ (encodable_op2 _), hsame, make_eta, encodeWith_of_decodeWith hT hi]
    · rw [encodeWith_of_decodeWith hT hi, hcanon] at hnot
      cases hnot
  · rintro ⟨mn, tgt, op2, h⟩
    obtain ⟨r, -, rfl⟩ | ⟨v, f, -, -, rfl⟩ := pack_cases h
    · simp [canonicalWord, opcInv_opc hT]
    · simp [canonicalWord, opcInv_opc hT]

/-- Settles O9: re-encoding packs the instruction whose source operand has lost its unused field. -/
theorem reencodingADecodedWord : Obligations.ReencodingADecodedWord := by
  intro T hT w i hi
  have hwf := wellFormed_of_decodeWith hT hi
  have hpack := pack_of_encodable hT i.mnemonic i.target (encodable_op2 i.source)
  refine ⟨_, _, hpack, fun hcanon => ?_, fun hnot => ?_, decodeWith_of_pack hT hpack, mnemonic_make ..,
    target_make .., fun s => ?_⟩
  · obtain ⟨-, hsame⟩ | ⟨hnot, -⟩ := canonicalWord_encodeWith hT hwf
    · rw [hsame, make_eta, encodeWith_of_decodeWith hT hi]
    · rw [encodeWith_of_decodeWith hT hi, hcanon] at hnot
      cases hnot
  · obtain ⟨hcanon, -⟩ | ⟨-, hcode, hfield⟩ := canonicalWord_encodeWith hT hwf
    · rw [encodeWith_of_decodeWith hT hi, hnot] at hcanon
      cases hcanon
    · rw [← encodeWith_of_decodeWith hT hi]
      simp [encodeWith, hcode, hfield]
  · rw [source_make]
    exact resolve_decoded_op2 hwf s

/-- Settles O10: the common word decodes to both instructions, and exact operands are told apart by what they decode
to. -/
theorem encoderInjectiveOnExactOperands : Obligations.EncoderInjectiveOnExactOperands := by
  intro T hT mn mn' tgt tgt' a b ha hb h
  have encodable {op2 : Op2} (hop : ExactOperand op2) : op2.Encodable := by
    cases op2 with
    | reg r => trivial
    | imm v => exact le_trans (by decide) hop.1
  have hpack := pack_of_encodable hT mn tgt (encodable ha)
  have hdec := (decodeWith_of_pack hT hpack).symm.trans (decodeWith_of_pack hT (h.symm.trans hpack))
  have hinstr : Instr.make mn tgt a.decoded = Instr.make mn' tgt' b.decoded := Except.ok.inj hdec
  refine ⟨by simpa using congrArg Instr.mnemonic hinstr, by simpa using congrArg Instr.target hinstr,
    decoded_injOn_exact ha hb (by simpa using congrArg Instr.source hinstr)⟩

/-- Settles O16: the encoder's checks are on the triple, and what it packs decodes to the triple's instruction at any
valid tables. -/
theorem instructionsDoNotDependOnTheTables : Obligations.InstructionsDoNotDependOnTheTables := by
  intro T hT e hne
  obtain ⟨d, he, he'⟩ | ⟨w, w', i, he, he', hd, hd'⟩ := encode_agrees hT tables_valid hne
  · rw [he, he']
    exact ⟨fun _ => Iff.rfl, nofun⟩
  · rw [he, he']
    refine ⟨fun _ => iff_of_false nofun nofun, fun v hv => ?_⟩
    cases hv
    exact ⟨w', i, rfl, hd, hd'⟩

end

/-! The invariant of a run: how each step keeps it, and what it says of the counters and the registers: the laws of a
run (10_state sections 2 and 3, 43_sequencing) and the obligations about runs. -/

namespace Sys2Proof.Machine

/-! ## What the reported rows add up to (70_reset_and_hazards R167) -/

theorem rowsOf_cons_divZero (mn : Mnemonic) (k : Nat) (tr : List Event) :
    rowsOf mn (.divZero k :: tr) = rowsOf mn tr := by
  simp [rowsOf]

theorem rowsOf_cons_row {i : Instr} {w : Word} (hdec : decode w = .ok i) (mn : Mnemonic) (k : Nat)
    (text : Option Entry) (c : Nat) (tr : List Event) :
    rowsOf mn (.row k text w c :: tr) = rowsOf mn tr + if i.mnemonic = mn then 1 else 0 := by
  simp only [rowsOf, List.countP_cons, hdec, beq_iff_eq]

/-- In a trace that reports a program the costs add up to the weighted counts of the rows, and every row is counted
under one mnemonic. -/
theorem reports_counts {p : List Entry} {tr : List Event} (h : ∀ ev ∈ tr, ev.reports p) :
    (tr.map eventCost).sum = rowsOf .mov tr + rowsOf .add tr + rowsOf .sub tr + 4 * rowsOf .mul tr
      + 6 * rowsOf .div tr ∧
    (tr.filterMap rowIndex).length = rowsOf .mov tr + rowsOf .add tr + rowsOf .sub tr + rowsOf .mul tr
      + rowsOf .div tr := by
  induction tr with
  | nil => exact ⟨rfl, rfl⟩
  | cons ev tr ih =>
    obtain ⟨ihcost, ihrows⟩ := ih fun ev' hev => h ev' (List.mem_cons_of_mem ev hev)
    cases ev with
    | divZero k => simpa [rowsOf_cons_divZero, eventCost, rowIndex] using ⟨ihcost, ihrows⟩
    | row k text w c =>
      obtain ⟨e, i, -, -, -, hdec, -, rfl⟩ := h _ List.mem_cons_self
      simp only [rowsOf_cons_row hdec, List.map_cons, List.sum_cons, List.filterMap_cons, rowIndex,
        List.length_cons, ihcost, ihrows, eventCost]
      cases i.mnemonic <;> simp [cost] <;> omega

/-! ## The counters of a state that meets the invariant (10_state R25, R26) -/

section Counters
variable {s : State} (hinv : Inv s)
include hinv

theorem Inv.counts :
    s.cycles.toNat = rowsOf .mov s.trace + rowsOf .add s.trace + rowsOf .sub s.trace + 4 * rowsOf .mul s.trace
      + 6 * rowsOf .div s.trace ∧
    s.instret.toNat = rowsOf .mov s.trace + rowsOf .add s.trace + rowsOf .sub s.trace + rowsOf .mul s.trace
      + rowsOf .div s.trace := by
  obtain ⟨hcost, hrows⟩ := reports_counts hinv.reports
  refine ⟨hinv.cycles_eq.trans hcost, ?_⟩
  rw [hinv.instret_eq, ← hrows, hinv.rows_eq, List.length_range]

/-- An instruction's charge wraps neither counter: both are within 6 times the bound on the program's length. -/
theorem Inv.charge_toNat (i : Instr) :
    (s.cycles + BitVec.ofNat 64 (cost i.mnemonic)).toNat = s.cycles.toNat + cost i.mnemonic ∧
      (s.instret + 1).toNat = s.instret.toNat + 1 := by
  obtain ⟨hcycles, hinstret⟩ := hinv.counts
  have hcost := cost_range i.mnemonic
  have hpc := hinv.instret_eq
  have hle := hinv.pc_le
  have hbound : s.prog.length < 2 ^ 61 := hinv.bounded
  have hone : (1 : Counter).toNat = 1 := rfl
  simp only [BitVec.toNat_add, BitVec.toNat_ofNat, hone]
  omega

end Counters

/-! ## The events of an instruction (43_sequencing R126, R133) -/

theorem mem_of_exec_divZero_lt {i : Instr} {s t : State} {k : Nat} (h : exec i s = .next t)
    (hmem : .divZero k ∈ t.trace) (hk : k < s.pc) : .divZero k ∈ s.trace := by
  by_contra hold
  obtain ⟨rfl, -⟩ := exec_divZero_of_not_mem h hmem hold
  exact Nat.lt_irrefl _ hk

/-- The events an instruction adds: its row, and a diagnostic when it writes nothing. -/
theorem mem_exec_trace {i : Instr} {s t : State} {ev : Event} (h : exec i s = .next t) (hmem : ev ∈ t.trace) :
    ev ∈ s.trace ∨ ev = s.rowOf i ∨ (written i s = none ∧ ev = .divZero s.pc) := by
  rwa [exec_trace h, List.mem_append, List.mem_cons, mem_diagnostics] at hmem

/-- An instruction's row carries its own index and cost, whatever the program. -/
theorem rowOf_fields (s : State) (i : Instr) :
    ∃ text w, s.rowOf i = .row s.pc text w (cost i.mnemonic) := ⟨_, _, rfl⟩

theorem diagnostics_fields (s : State) (v : Option Word) :
    ((diagnostics s v).map eventCost).sum = 0 ∧ (diagnostics s v).filterMap rowIndex = [] := by
  cases v with
  | none => exact ⟨rfl, rfl⟩
  | some v => exact ⟨rfl, rfl⟩

/-- An instruction's events stand in the two places of its index, in order. -/
theorem exec_places (s : State) (i : Instr) (v : Option Word) :
    ((s.rowOf i :: diagnostics s v).map Event.place).Pairwise (· < ·) ∧
      ∀ n ∈ (s.rowOf i :: diagnostics s v).map Event.place, 2 * s.pc ≤ n := by
  cases v with
  | none => simp [diagnostics, State.rowOf, State.rowWith, Event.place]
  | some v => simp [diagnostics, State.rowOf, State.rowWith, Event.place]

theorem place_lt_of_index_lt {ev : Event} {k : Nat} (h : ev.index < k) : ev.place < 2 * k := by
  cases ev with
  | row j text w c =>
    have hj : j < k := h
    show 2 * j < 2 * k
    omega
  | divZero j =>
    have hj : j < k := h
    show 2 * j + 1 < 2 * k
    omega

theorem index_of_exec {i : Instr} {s t : State} (h : exec i s = .next t) (hs : ∀ ev ∈ s.trace, ev.index < s.pc) :
    ∀ ev ∈ t.trace, ev.index < t.pc := by
  intro ev hmem
  rw [exec_pc h]
  obtain hold | rfl | ⟨-, rfl⟩ := mem_exec_trace h hmem
  · exact Nat.lt_succ_of_lt (hs ev hold)
  · exact Nat.lt_succ_self _
  · exact Nat.lt_succ_self _

/-- The row and the diagnostic of the entry that ran report the program as it is. -/
theorem reports_of_exec {i : Instr} {w : Word} {s t : State} (hruns : RunsAt s.prog s.pc w i)
    (h : exec i s = .next t) (hs : ∀ ev ∈ s.trace, ev.reports s.prog) : ∀ ev ∈ t.trace, ev.reports t.prog := by
  intro ev hmem
  rw [exec_prog h]
  obtain hold | rfl | ⟨hw, rfl⟩ := mem_exec_trace h hmem
  · exact hs ev hold
  · obtain ⟨e, he, hsent, henc, hdec⟩ := hruns
    rw [rowOf_eq he hdec]
    exact ⟨e, i, he, hsent, henc, hdec, rfl, rfl⟩
  · obtain ⟨hdiv, -⟩ := written_eq_none.mp hw
    cases i with
    | div tgt src => exact ⟨w, tgt, src, hruns⟩
    | mov tgt src => cases hdiv
    | add tgt src => cases hdiv
    | sub tgt src => cases hdiv
    | mul tgt src => cases hdiv

/-! ## Which registers the trace says were written (70_reset_and_hazards R162) -/

/-- The target of an instruction is reported as written, or the instruction as skipped. -/
theorem writesReg_target_of_exec {i : Instr} {s t : State} {w : Word} (h : exec i s = .next t)
    (hruns : RunsAt s.prog s.pc w i) (hskip : .divZero s.pc ∉ t.trace) : WritesReg t.trace i.target := by
  obtain ⟨e, he, -, -, hdec⟩ := hruns
  refine ⟨s.pc, e.reported, w, cost i.mnemonic, i, ?_, hdec, rfl, hskip⟩
  rw [exec_trace h, rowOf_eq he hdec]
  exact List.mem_append_right _ List.mem_cons_self

section Written
variable {i : Instr} {s t : State} (h : exec i s = .next t) (hindex : ∀ ev ∈ s.trace, ev.index < s.pc)
include h hindex

theorem writesReg_of_exec {r : Reg} (hr : WritesReg s.trace r) : WritesReg t.trace r := by
  obtain ⟨k, text, w, c, j, hmem, hdec, htgt, hnot⟩ := hr
  have hk : k < s.pc := hindex _ hmem
  refine ⟨k, text, w, c, j, ?_, hdec, htgt, fun hdz => hnot (mem_of_exec_divZero_lt h hdz hk)⟩
  rw [exec_trace h]
  exact List.mem_append_left _ hmem

/-- A register the trace does not report as written holds what it held before the instruction. -/
theorem read_of_not_writesReg {w : Word} {r : Reg} (hruns : RunsAt s.prog s.pc w i)
    (hr : ¬ WritesReg t.trace r) : t.read r = s.read r := by
  have hold : .divZero s.pc ∉ s.trace := fun hmem => Nat.lt_irrefl _ (hindex _ hmem)
  refine exec_read_of_target_skipped h hold fun htgt => by_contra fun hskip => hr ?_
  rw [← htgt]
  exact writesReg_target_of_exec h hruns hskip

end Written

/-! ## Every step keeps the invariant -/

theorem RunsAt.lt_length {p : List Entry} {k : Nat} {w : Word} {i : Instr} (h : RunsAt p k w i) : k < p.length := by
  obtain ⟨e, he, -⟩ := h
  exact (List.getElem?_eq_some_iff.mp he).1

theorem Inv.after_exec {s t : State} {w : Word} {i : Instr} (hinv : Inv s) (hst : s.status = .running)
    (hruns : RunsAt s.prog s.pc w i) (h : exec i s = .next t) : Inv t := by
  obtain ⟨-, hpc, hcycles, hinstret, hstatus, hprog, htrace⟩ := exec_next_eq h
  obtain ⟨hcyclesNat, hinstretNat⟩ := hinv.charge_toNat i
  obtain ⟨text, w', hrow⟩ := rowOf_fields s i
  obtain ⟨hdiagCost, hdiagRow⟩ := diagnostics_fields s (written i s)
  constructor
  case bounded => exact hprog ▸ hinv.bounded
  case pc_le => rw [hpc, hprog]; exact hruns.lt_length
  case instret_eq => rw [hinstret, hinstretNat, hinv.instret_eq, hpc]
  case cycles_eq =>
    rw [hcycles, hcyclesNat, hinv.cycles_eq, htrace, hrow]
    simp [eventCost, hdiagCost]
  case rows_eq =>
    rw [htrace, hrow, hpc, List.range_succ, ← hinv.rows_eq, List.filterMap_append]
    simp [rowIndex, hdiagRow]
  case ordered =>
    obtain ⟨hpair, hge⟩ := exec_places s i (written i s)
    rw [htrace, List.map_append, List.pairwise_append]
    refine ⟨hinv.ordered, hpair, fun a ha b hb => ?_⟩
    obtain ⟨ev, hev, rfl⟩ := List.mem_map.mp ha
    exact (place_lt_of_index_lt (hinv.index_lt ev hev)).trans_le (hge b hb)
  case index_lt => exact index_of_exec h hinv.index_lt
  case reports => exact reports_of_exec hruns h hinv.reports
  case unwritten =>
    intro r hr
    rw [read_of_not_writesReg h hinv.index_lt hruns hr]
    exact hinv.unwritten r fun hw => hr (writesReg_of_exec h hinv.index_lt hw)
  case status =>
    rw [StatusExplained, hstatus, hst]
    trivial

/-- Only the invariant's last part speaks of the status. -/
theorem Inv.with_status {s : State} (hinv : Inv s) (st : Status)
    (h : StatusExplained { s with status := st }) : Inv { s with status := st } where
  bounded := hinv.bounded
  pc_le := hinv.pc_le
  instret_eq := hinv.instret_eq
  cycles_eq := hinv.cycles_eq
  rows_eq := hinv.rows_eq
  ordered := hinv.ordered
  index_lt := hinv.index_lt
  reports := hinv.reports
  unwritten := hinv.unwritten
  status := h

theorem Inv.instret_eq_zero_iff {s : State} (hinv : Inv s) : s.instret = 0 ↔ s.pc = 0 := by
  rw [← hinv.instret_eq]
  exact BitVec.toNat_eq

theorem halt_status_of_instret_ne_zero {s : State} (h : s.instret ≠ 0) : s.halt.status = .halted := by
  rw [halt_eq]
  exact if_neg h

theorem Inv.halt {s : State} (hinv : Inv s) (h : HaltsAt s.prog s.pc) : Inv s.halt := by
  obtain ⟨hzero, heq⟩ | ⟨hne, heq⟩ := halt_cases s
  · have hpc : s.pc = 0 := hinv.instret_eq_zero_iff.mp hzero
    rw [heq]
    exact hinv.with_status _ ⟨rfl, .inr ⟨rfl, rfl, hpc, hpc ▸ h⟩⟩
  · have hpc : s.pc ≠ 0 := fun hpc => hne (hinv.instret_eq_zero_iff.mpr hpc)
    rw [heq]
    exact hinv.with_status _ ⟨Nat.pos_of_ne_zero hpc, h⟩

theorem Inv.raise {s : State} {d : Diag} (hinv : Inv s) (h : FailsAt s.prog s.pc d) :
    Inv (s.raise d.kind d.token) :=
  hinv.with_status _ ⟨rfl, .inl h⟩

theorem Inv.after_step {s t : State} (hinv : Inv s) (h : step s = .next t) : Inv t := by
  obtain ⟨hst, -, ⟨hhalt, rfl⟩ | ⟨d, hfail, rfl⟩ | ⟨w, i, hruns, hexec⟩⟩ := step_next_cases h
  · exact hinv.halt hhalt
  · exact hinv.raise hfail
  · exact hinv.after_exec hst hruns hexec

theorem inv_load {p : List Entry} (h : programWellFormed p = true) : Inv (State.load p) where
  bounded := of_decide_eq_true h
  pc_le := Nat.zero_le _
  instret_eq := rfl
  cycles_eq := rfl
  rows_eq := rfl
  ordered := List.Pairwise.nil
  index_lt := nofun
  reports := nofun
  unwritten r _ := (leftAloneReadsZero_load p).read_zero r nofun
  status := trivial

theorem inv_of_run {p : List Entry} {k : Nat} {s : State} (h : programWellFormed p = true)
    (hrun : Host.Core.run Sys2Proof.core k (State.load p) = .next s) : Inv s :=
  run_keeps (fun _ _ => Inv.after_step) (inv_load h) hrun

/-! ## How a run goes on and how it ends (43_sequencing R129) -/

theorem run_one {s t : State} (h : step s = .next t) : Host.Core.run Sys2Proof.core 1 s = .next t :=
  run_next h 0

/-- A run that answers a state answered one after each of its first steps. -/
theorem run_split {a b : Nat} : ∀ {s t : State}, Host.Core.run Sys2Proof.core (a + b) s = .next t →
    ∃ u, Host.Core.run Sys2Proof.core a s = .next u ∧ Host.Core.run Sys2Proof.core b u = .next t := by
  induction a with
  | zero =>
    intro s t h
    rw [Nat.zero_add] at h
    exact ⟨s, rfl, h⟩
  | succ a ih =>
    intro s t h
    rw [Nat.succ_add] at h
    obtain ⟨v, hv, h⟩ := run_succ_inv h
    obtain ⟨u, hu, h⟩ := ih h
    exact ⟨u, (run_next hv a).trans hu, h⟩

/-- The last step of a run. -/
theorem run_last {k : Nat} {s t : State} (h : Host.Core.run Sys2Proof.core (k + 1) s = .next t) :
    ∃ u, Host.Core.run Sys2Proof.core k s = .next u ∧ step u = .next t := by
  obtain ⟨u, hu, h⟩ := run_split h
  obtain ⟨v, hv, h⟩ := run_succ_inv h
  cases h
  exact ⟨u, hu, hv⟩

/-- A run that still goes on has advanced `pc` by one at each step; one that has ended has not moved at its last. -/
theorem run_pc {s : State} : ∀ {k : Nat} {t : State}, Host.Core.run Sys2Proof.core k s = .next t →
    t.pc ≤ s.pc + k ∧ (t.status = .running → t.pc = s.pc + k) := by
  intro k
  induction k with
  | zero =>
    intro t h
    cases h
    exact ⟨Nat.le_refl _, fun _ => rfl⟩
  | succ k ih =>
    intro t h
    obtain ⟨u, hu, hstep⟩ := run_last h
    obtain ⟨hust, -⟩ := step_next_cases hstep
    have hupc : u.pc = s.pc + k := (ih hu).2 hust
    obtain ⟨hgo, hstop⟩ := step_pc hstep
    refine ⟨?_, fun hst => by rw [hgo hst, hupc]; rfl⟩
    by_cases hst : t.status = .running
    · rw [hgo hst, hupc]
      exact Nat.le_refl _
    · rw [hstop hst, hupc]
      exact Nat.le_succ _

/-- Every index of a program, and its end, halts a run or holds an entry to encode. -/
theorem haltsAt_or_entry {p : List Entry} {k : Nat} (hk : k ≤ p.length) :
    HaltsAt p k ∨ ∃ e, p[k]? = some e ∧ e.isSentinel = false := by
  obtain hend | hlt := Nat.eq_or_lt_of_le hk
  · exact .inl (.inl hend)
  have he : p[k]? = some p[k] := List.getElem?_eq_getElem hlt
  cases hs : p[k].isSentinel with
  | true => exact .inl (.inr ⟨_, he, hs⟩)
  | false => exact .inr ⟨_, he, hs⟩

/-- Every index of a program, and its end, halts, fails or runs. -/
theorem entry_cases {p : List Entry} {k : Nat} (hk : k ≤ p.length) :
    HaltsAt p k ∨ (∃ d, FailsAt p k d) ∨ ∃ w i, RunsAt p k w i := by
  obtain hhalt | ⟨e, he, hs⟩ := haltsAt_or_entry hk
  · exact .inl hhalt
  cases henc : e.encode tables with
  | error d => exact .inr (.inl ⟨d, e, he, hs, .inl henc⟩)
  | ok w =>
    cases hdec : decode w with
    | error d => exact .inr (.inl ⟨d, e, he, hs, .inr ⟨w, henc, hdec⟩⟩)
    | ok i => exact .inr (.inr ⟨w, i, e, he, hs, henc, hdec⟩)

/-- Where an entry stops the run, the step ends it and keeps `pc`. -/
theorem step_of_stopping {s : State} (hst : s.status = .running) (hwf : programWellFormed s.prog = true)
    (h : HaltsAt s.prog s.pc ∨ ∃ d, FailsAt s.prog s.pc d) :
    ∃ t, step s = .next t ∧ t.pc = s.pc ∧ t.status ≠ .running := by
  obtain hhalt | ⟨d, hfail⟩ := h
  · exact ⟨_, step_of_haltsAt hst hwf hhalt, halt_pc s, halt_status_ne_running s⟩
  · exact ⟨_, step_of_failsAt hst hwf hfail, rfl, nofun⟩

/-- Where an entry runs, the step goes on at the next one. -/
theorem step_of_running_entry {s : State} {w : Word} {i : Instr} (hst : s.status = .running)
    (hwf : programWellFormed s.prog = true) (h : RunsAt s.prog s.pc w i) :
    ∃ t, step s = .next t ∧ t.pc = s.pc + 1 ∧ t.status = .running ∧ t.prog = s.prog := by
  have hexec := exec_eq i s
  exact ⟨_, (step_of_runsAt hst hwf h).trans hexec, exec_pc hexec, (exec_status hexec).trans hst, exec_prog hexec⟩

/-- A run ends within as many steps as there are entries left, and one more. -/
theorem exists_run_stops (n : Nat) : ∀ s : State, s.status = .running → programWellFormed s.prog = true →
    s.prog.length = s.pc + n →
    ∃ k t, k ≤ n + 1 ∧ Host.Core.run Sys2Proof.core k s = .next t ∧ t.status ≠ .running := by
  induction n with
  | zero =>
    intro s hst hwf hlen
    obtain ⟨t, hstep, -, hstop⟩ := step_of_stopping hst hwf (.inl (.inl hlen.symm))
    exact ⟨1, t, Nat.le_refl _, run_one hstep, hstop⟩
  | succ n ih =>
    intro s hst hwf hlen
    have hle : s.pc ≤ s.prog.length := by omega
    have stops (h : HaltsAt s.prog s.pc ∨ ∃ d, FailsAt s.prog s.pc d) :
        ∃ k t, k ≤ n + 1 + 1 ∧ Host.Core.run Sys2Proof.core k s = .next t ∧ t.status ≠ .running := by
      obtain ⟨t, hstep, -, hstop⟩ := step_of_stopping hst hwf h
      exact ⟨1, t, by omega, run_one hstep, hstop⟩
    obtain hhalt | hfail | ⟨w, i, hruns⟩ := entry_cases hle
    · exact stops (.inl hhalt)
    · exact stops (.inr hfail)
    · obtain ⟨u, hstep, hpc, hust, hprog⟩ := step_of_running_entry hst hwf hruns
      obtain ⟨k, t, hk, hrun, hstop⟩ := ih u hust (hprog ▸ hwf) (by rw [hprog, hlen, hpc]; omega)
      exact ⟨k + 1, t, Nat.succ_le_succ hk, (run_next hstep k).trans hrun, hstop⟩

/-- While entries run, so does the machine, one entry a step. -/
theorem run_of_running_entries {p : List Entry} (hwf : programWellFormed p = true) {k : Nat} :
    (∀ j, j < k → ∃ w i, RunsAt p j w i) →
    ∃ s : State, Host.Core.run Sys2Proof.core k (State.load p) = .next s ∧ s.status = .running ∧ s.pc = k ∧
      s.prog = p := by
  induction k with
  | zero => exact fun _ => ⟨State.load p, rfl, rfl, rfl, rfl⟩
  | succ k ih =>
    intro h
    obtain ⟨s, hrun, hst, hpc, hprog⟩ := ih fun j hj => h j (Nat.lt_succ_of_lt hj)
    obtain ⟨w, i, hruns⟩ := h k (Nat.lt_succ_self k)
    rw [← hpc, ← hprog] at hruns
    obtain ⟨t, hstep, htpc, htst, htprog⟩ := step_of_running_entry hst (hprog ▸ hwf) hruns
    refine ⟨t, ?_, htst, by rw [htpc, hpc], htprog.trans hprog⟩
    rw [run_add hrun 1]
    exact run_one hstep

/-! ## The latest write to a register (20_memory section 3) -/

/-- The executed entries after `j` with the target `r` are divisions that were skipped. -/
def LeftAloneSince (j : Nat) (r : Reg) (s : State) : Prop :=
  ∀ m w i, j < m → m < s.pc → RunsAt s.prog m w i → i.target = r → i.mnemonic = .div ∧ .divZero m ∈ s.trace

theorem LeftAloneSince.before_exec {j : Nat} {r : Reg} {i : Instr} {s t : State} (hr : LeftAloneSince j r t)
    (h : exec i s = .next t) : LeftAloneSince j r s := by
  intro m w i' hj hm hruns htgt
  obtain ⟨hdiv, hmem⟩ := hr m w i' hj (exec_pc h ▸ Nat.lt_succ_of_lt hm) (exec_prog h ▸ hruns) htgt
  exact ⟨hdiv, mem_of_exec_divZero_lt h hmem hm⟩

/-- An instruction after entry `j` keeps a register left alone since. -/
theorem LeftAloneSince.read_exec {j : Nat} {r : Reg} {w : Word} {i : Instr} {s t : State} (hr : LeftAloneSince j r t)
    (hinv : Inv s) (hj : j < s.pc) (hruns : RunsAt s.prog s.pc w i) (h : exec i s = .next t) :
    t.read r = s.read r := by
  have hold : .divZero s.pc ∉ s.trace := fun hmem => Nat.lt_irrefl _ (hinv.index_lt _ hmem)
  exact exec_read_of_target_skipped h hold fun htgt =>
    (hr s.pc w i hj (exec_pc h ▸ Nat.lt_succ_self _) (exec_prog h ▸ hruns) htgt).2

/-- A step after entry `j` keeps a register left alone since, which was left alone before the step too. -/
theorem LeftAloneSince.before_step {j : Nat} {r : Reg} {s t : State} (hr : LeftAloneSince j r t) (hinv : Inv s)
    (hj : j < s.pc) (h : step s = .next t) : LeftAloneSince j r s ∧ t.read r = s.read r := by
  obtain ⟨st, rfl⟩ | ⟨w, i, hruns, hexec⟩ := step_status_or_exec h
  · exact ⟨hr, rfl⟩
  · exact ⟨hr.before_exec hexec, hr.read_exec hinv hj hruns hexec⟩

/-- A run from a state after entry `j` keeps a register left alone since. -/
theorem LeftAloneSince.read_run {j : Nat} {r : Reg} {u : State} (hinv : Inv u) (hj : j < u.pc) {b : Nat} :
    ∀ {s : State}, Host.Core.run Sys2Proof.core b u = .next s → LeftAloneSince j r s → s.read r = u.read r := by
  induction b with
  | zero =>
    intro s h _
    cases h
    rfl
  | succ b ih =>
    intro s h hr
    obtain ⟨v, hv, hstep⟩ := run_last h
    have hvinv : Inv v := run_keeps (fun _ _ => Inv.after_step) hinv hv
    obtain ⟨hvst, -⟩ := step_next_cases hstep
    have hvpc : v.pc = u.pc + b := (run_pc hv).2 hvst
    obtain ⟨hrv, hread⟩ := hr.before_step hvinv (by omega) hstep
    rw [hread, ih hv hrv]

/-- A run that has executed entry `j` was at entry `j + 1` after `j + 1` steps. -/
theorem run_at_entry {p : List Entry} {k j : Nat} {s : State}
    (h : Host.Core.run Sys2Proof.core k (State.load p) = .next s) (hj : j < s.pc) :
    ∃ u b, Host.Core.run Sys2Proof.core (j + 1) (State.load p) = .next u ∧ u.pc = j + 1 ∧
      Host.Core.run Sys2Proof.core b u = .next s := by
  obtain ⟨hle, -⟩ := run_pc h
  rw [load_pc, Nat.zero_add] at hle
  obtain ⟨b, rfl⟩ : ∃ b, k = j + 1 + b := ⟨k - (j + 1), by omega⟩
  obtain ⟨u, hu, hb⟩ := run_split h
  refine ⟨u, b, hu, ?_, hb⟩
  obtain ⟨hupc, hgo⟩ := run_pc hu
  rw [load_pc, Nat.zero_add] at hupc hgo
  cases b with
  | zero =>
    cases hb
    omega
  | succ b =>
    obtain ⟨v, hv, -⟩ := run_succ_inv hb
    exact hgo (step_next_cases hv).1

end Sys2Proof.Machine

section
open Sys2Proof Sys2Proof.Machine

/-- Settles O43: a halt and an error change the status only, which the entry explains; an instruction adds its own row
and diagnostic and advances both counters within their range. -/
theorem everyStepKeepsTheRunInvariant : Obligations.EveryStepKeepsTheRunInvariant :=
  fun _ _ hinv h => hinv.after_step h

/-- Settles O44: nothing has been executed or reported at the start of a run. -/
theorem runInvariantHoldsAtReset : Obligations.RunInvariantHoldsAtReset :=
  ⟨inv_load (p := []) (by decide), fun _ h => inv_load h⟩

/-- Settles O46: the state after entry `j` is one the run passed through, and every later step keeps the register. -/
theorem registersHoldTheLatestWriteInProgramOrder : Obligations.RegistersHoldTheLatestWriteInProgramOrder := by
  intro p k j s r hwf hrun hj hr
  have hprog : s.prog = p := run_prog hrun
  obtain ⟨u, b, hu, hupc, hb⟩ := run_at_entry hrun hj
  have hsince : LeftAloneSince j r s := fun m w i hm hms hruns => hr m w i hm hms (hprog ▸ hruns)
  exact ⟨u, hu, hupc, hsince.read_run (inv_of_run hwf hu) (by omega) hb⟩

/-- Settles O47: every row costs what its mnemonic does, and is counted under it. -/
theorem cyclesAreTheWeightedInstructionCounts : Obligations.CyclesAreTheWeightedInstructionCounts := by
  intro s hinv
  obtain ⟨hcycles, hinstret⟩ := hinv.counts
  exact ⟨hcycles, hinstret, by omega, by omega⟩

/-- Settles O48: the invariant bounds both counters by the program's length. -/
theorem countersNeverWrapInARun : Obligations.CountersNeverWrapInARun := by
  intro s w i hinv hst hruns
  have hstep := (step_of_runsAt hst (decide_eq_true hinv.bounded) hruns).trans (exec_eq i s)
  exact ⟨_, hstep, hinv.charge_toNat i⟩

/-- Settles O49: an induction on the number of entries left. -/
theorem everyRunEndsWithinItsLengthPlusOne : Obligations.EveryRunEndsWithinItsLengthPlusOne :=
  fun s hst hwf hle => exists_run_stops (s.prog.length - s.pc) s hst hwf (by omega)

/-- Settles O50: the entries before `k` run one a step, and the step at `k` ends the run. -/
theorem runStopsAtTheFirstStoppingEntry : Obligations.RunStopsAtTheFirstStoppingEntry := by
  intro p k hwf hruns hstops
  obtain ⟨s, hrun, hst, rfl, rfl⟩ := run_of_running_entries hwf hruns
  have hinv : Inv s := inv_of_run hwf hrun
  obtain ⟨t, hstep, hpc, hstop⟩ := step_of_stopping hst hwf hstops
  have htinv : Inv t := hinv.after_step hstep
  have answers {u : State} (hu : step s = .next u) : t = u := by
    cases hstep.symm.trans hu
    rfl
  refine ⟨t, (run_add hrun 1).trans (run_one hstep), hpc, htinv.instret_eq.trans hpc, hstop,
    hpc ▸ htinv.rows_eq, fun hhalt hpos => ?_, fun d hfail => ?_⟩
  · have hne : s.instret ≠ 0 := fun hzero => Nat.ne_of_gt hpos (hinv.instret_eq_zero_iff.mp hzero)
    rw [answers (step_of_haltsAt hst hwf hhalt), halt_status_of_instret_ne_zero hne]
  · rw [answers (step_of_failsAt hst hwf hfail), raise_status]

end

/-! What each instruction writes, in the source value and the target: the laws of data movement and arithmetic (41_mov,
42_arithmetic), their relation to the unbounded machine, and the obligations of those chapters. -/

namespace Sys2Proof.Machine

/-! ## An instruction that writes (43_sequencing R120) -/

theorem exec_accounted {i : Instr} {s t : State} (h : exec i s = .next t) : Accounted i s t := by
  obtain ⟨-, hpc, hcycles, hinstret, hstatus, hprog, -⟩ := exec_next_eq h
  exact ⟨hpc, hcycles, hinstret, hstatus, hprog⟩

/-- An instruction that writes `v` completes with `v` in its target, and its row is its only event. -/
theorem exists_exec_of_written {i : Instr} {s : State} {v : Word} (hw : written i s = some v) :
    ∃ t, exec i s = .next t ∧ t.read i.target = v ∧ OnlyRegister i.target s t ∧ Accounted i s t ∧
      t.trace = s.trace ++ [s.rowOf i] := by
  have h := exec_eq i s
  refine ⟨_, h, ?_, exec_onlyRegister h, exec_accounted h, ?_⟩
  · rw [exec_read_target h, hw, Option.getD_some]
  · rw [exec_trace h, hw]
    rfl

/-- An instruction whose target already holds what it writes keeps all registers. -/
theorem exec_x_of_written_same {i : Instr} {s t : State} (h : exec i s = .next t)
    (hw : written i s = some (s.read i.target)) : t.x = s.x := by
  refine regs_ext fun q => (exec_read_of_written h hw q).trans ?_
  split
  · next hq => rw [hq, State.read]
  · rfl

theorem written_div_of_ne_zero (tgt : Reg) {src : Source} {s : State} (h : s.resolve src ≠ 0) :
    written (.div tgt src) s = some (aluDiv (s.read tgt) (s.resolve src)) :=
  if_neg h

/-! ## Results modulo `2^32` (42_arithmetic R105) -/

theorem wrap32_toInt_emod (z : Int) : (wrap32 z).toInt % 2 ^ 32 = z % 2 ^ 32 :=
  (wrap32_eq_iff _ _).mp (wrap32_of_toInt _)

/-- The result is the same for operands known modulo `2^32` only (42_arithmetic R113). -/
theorem aluAdd_wrap32 (a b : Int) : aluAdd (wrap32 a) (wrap32 b) = wrap32 (a + b) := by
  rw [aluAdd_eq]
  exact (BitVec.ofInt_add a b).symm

theorem aluSub_wrap32 (a b : Int) : aluSub (wrap32 a) (wrap32 b) = wrap32 (a - b) := by
  rw [aluSub, wrap32_eq_iff, Int.sub_emod, wrap32_toInt_emod, wrap32_toInt_emod, ← Int.sub_emod]

theorem aluMul_wrap32 (a b : Int) : aluMul (wrap32 a) (wrap32 b) = wrap32 (a * b) := by
  rw [aluMul_eq]
  exact (BitVec.ofInt_mul a b).symm

theorem toInt_ne_zero {v : Word} (h : v ≠ 0) : v.toInt ≠ 0 := BitVec.toInt_ne.mpr h

/-! ## The floor of the exact quotient (42_arithmetic R109, R112) -/

theorem floor_intCast_div_intCast (a : Int) {b : Int} (hb : b ≠ 0) : ⌊(a : ℚ) / (b : ℚ)⌋ = a.fdiv b := by
  have hdiv : (b : ℚ) * (a.fdiv b : ℚ) + (a.fmod b : ℚ) = (a : ℚ) := by exact_mod_cast Int.mul_fdiv_add_fmod a b
  have hb' : (b : ℚ) ≠ 0 := Int.cast_ne_zero.mpr hb
  have hquot : (a : ℚ) / b = a.fdiv b + (a.fmod b : ℚ) / b := by
    field_simp
    linarith
  rw [Int.floor_eq_iff, hquot]
  obtain ⟨hpos, hlo, hhi⟩ | ⟨hneg, hlo, hhi⟩ := fmod_range a hb
  · have hpos' : (0 : ℚ) < b := Int.cast_pos.mpr hpos
    have h0 : 0 ≤ (a.fmod b : ℚ) / b := div_nonneg (Int.cast_nonneg hlo) hpos'.le
    have h1 : (a.fmod b : ℚ) / b < 1 := (div_lt_one hpos').mpr (Int.cast_lt.mpr hhi)
    constructor <;> linarith
  · have hneg' : (b : ℚ) < 0 := Int.cast_lt_zero.mpr hneg
    have h0 : 0 ≤ (a.fmod b : ℚ) / b := div_nonneg_of_nonpos (Int.cast_nonpos.mpr hhi) hneg'.le
    have h1 : (a.fmod b : ℚ) / b < 1 := (div_lt_one_of_neg hneg').mpr (Int.cast_lt.mpr hlo)
    constructor <;> linarith

/-- The quotient of `div` is the wrapped floor of the exact quotient. -/
theorem aluDiv_eq_wrap32_floor (a : Word) {b : Word} (hb : b ≠ 0) :
    aluDiv a b = wrap32 ⌊(a.toInt : ℚ) / (b.toInt : ℚ)⌋ := by
  rw [floor_intCast_div_intCast _ (toInt_ne_zero hb), aluDiv]

/-- The floor leaves the signed range for `-2^31 / -1` only. -/
theorem not_fdiv_range_iff (a : Word) {b : Word} (hb : b ≠ 0) :
    ¬ (-2 ^ 31 ≤ a.toInt.fdiv b.toInt ∧ a.toInt.fdiv b.toInt < 2 ^ 31) ↔ a.toInt = -2 ^ 31 ∧ b.toInt = -1 := by
  constructor
  · intro hout
    by_contra hover
    exact hout (fdiv_range a.le_toInt a.toInt_lt (toInt_ne_zero hb) hover)
  · rintro ⟨ha, hb1⟩
    rw [ha, hb1]
    decide

/-- The overflowing quotient wraps to the dividend. -/
theorem aluDiv_overflow {a b : Word} (ha : a.toInt = -2 ^ 31) (hb : b.toInt = -1) : aluDiv a b = a := by
  calc aluDiv a b = wrap32 ((-2 ^ 31 : Int).fdiv (-1)) := by rw [aluDiv, ha, hb]
    _ = wrap32 (-2 ^ 31) := by decide
    _ = a := by rw [← ha, wrap32_of_toInt]

theorem aluDiv_self {a : Word} (ha : a ≠ 0) : aluDiv a a = 1 := by
  rw [aluDiv, Int.fdiv_self (toInt_ne_zero ha)]
  rfl

/-! ## The unbounded machine (42_arithmetic R113) -/

section Unbounded
variable {s : State} {u : Vector Int 8} (hx : s.x = u.map wrap32)
include hx

theorem read_of_wrapped (r : Reg) : s.read r = wrap32 (u.get r) := by
  rw [State.read, hx, Vector.get_map]

theorem resolve_of_wrapped (src : Source) : s.resolve src = wrap32 (unboundedResolve u src) := by
  cases src with
  | imm f => rfl
  | reg r f =>
    by_cases hr : r = 0
    · rw [State.resolve, unboundedResolve, if_pos hr, if_pos hr]
    · rw [State.resolve, unboundedResolve, if_neg hr, if_neg hr, read_of_wrapped hx]

/-- What an instruction other than `div` writes is the wrapped image of what the unbounded machine writes. -/
theorem written_of_wrapped {i : Instr} (hi : i.mnemonic ≠ .div) :
    written i s = (unboundedResult i u).map wrap32 := by
  cases i with
  | mov tgt src => exact congrArg some (resolve_of_wrapped hx src)
  | add tgt src =>
    refine congrArg some ?_
    rw [read_of_wrapped hx, resolve_of_wrapped hx, aluAdd_wrap32]
    rfl
  | sub tgt src =>
    refine congrArg some ?_
    rw [read_of_wrapped hx, resolve_of_wrapped hx, aluSub_wrap32]
    rfl
  | mul tgt src =>
    refine congrArg some ?_
    rw [read_of_wrapped hx, resolve_of_wrapped hx, aluMul_wrap32]
    rfl
  | div tgt src => exact absurd rfl hi

/-- The registers after an instruction that writes the wrapped image are the wrapped image. -/
theorem regsAfter_of_wrapped {i : Instr} (hw : written i s = (unboundedResult i u).map wrap32) :
    regsAfter s i.target (written i s) = (unboundedApply i u).map wrap32 := by
  rw [hw]
  cases hv : unboundedResult i u with
  | none =>
    simp only [unboundedApply, hv, Option.map_none]
    exact hx
  | some v =>
    simp only [unboundedApply, hv, Option.map_some, Vector.map_set, ← hx]
    rfl

end Unbounded

/-- The signed values of the registers have the registers as their wrapped image. -/
theorem wrapped_of_toInt {x : Vector Word 8} {u : Vector Int 8} (h : x.map BitVec.toInt = u) : x = u.map wrap32 := by
  refine Vector.ext fun k hk => ?_
  rw [← h, Vector.getElem_map, Vector.getElem_map, wrap32_of_toInt]

section Signed
variable {s : State} {u : Vector Int 8} (hx : s.x.map BitVec.toInt = u)
include hx

theorem get_of_signed (r : Reg) : u.get r = (s.read r).toInt := by
  rw [← hx, Vector.get_map, State.read]

theorem resolve_of_signed (src : Source) : unboundedResolve u src = (s.resolve src).toInt := by
  have himm (f : ImmField) : sext21 f = (wrap32 (sext21 f)).toInt := by
    obtain ⟨hlo, hhi⟩ := sext21_range f
    exact (wrap32_toInt (by omega) (by omega)).symm
  cases src with
  | imm f => exact himm f
  | reg r f =>
    by_cases hr : r = 0
    · rw [unboundedResolve, State.resolve, if_pos hr, if_pos hr]
      exact himm f
    · rw [unboundedResolve, State.resolve, if_neg hr, if_neg hr, get_of_signed hx]

/-- On the registers' own signed values the two machines write alike, division included. -/
theorem written_of_signed (i : Instr) : written i s = (unboundedResult i u).map wrap32 := by
  by_cases hi : i.mnemonic = .div
  · cases i with
    | div tgt src =>
      have ha : u.get (Instr.div tgt src).target = (s.read tgt).toInt := get_of_signed hx tgt
      have hv : unboundedResolve u (Instr.div tgt src).source = (s.resolve src).toInt := resolve_of_signed hx src
      simp only [unboundedResult, ha, hv]
      by_cases hzero : s.resolve src = 0
      · rw [written_div_of_zero tgt hzero, hzero]
        rfl
      · rw [written_div_of_ne_zero tgt hzero, if_neg (toInt_ne_zero hzero)]
        rfl
    | mov tgt src => cases hi
    | add tgt src => cases hi
    | sub tgt src => cases hi
    | mul tgt src => cases hi
  · exact written_of_wrapped (wrapped_of_toInt hx) hi

end Signed

/-- Registers of the unbounded machine hold what they held, or what the instruction writes. -/
theorem get_unboundedApply (i : Instr) (u : Vector Int 8) (r : Reg) :
    (unboundedApply i u).get r = u.get r ∨ unboundedResult i u = some ((unboundedApply i u).get r) := by
  cases hv : unboundedResult i u with
  | none => simp only [unboundedApply, hv, true_or]
  | some v =>
    simp only [unboundedApply, hv, Vector.get_eq_getElem, Vector.getElem_set]
    split
    · exact .inr rfl
    · exact .inl rfl

/-- Values in the signed range survive `wrap32`. -/
theorem toInt_map_wrap32 {u : Vector Int 8} (h : ∀ r : Reg, -2 ^ 31 ≤ u.get r ∧ u.get r < 2 ^ 31) :
    (u.map wrap32).map BitVec.toInt = u := by
  refine Vector.ext fun k hk => ?_
  obtain ⟨hlo, hhi⟩ := h ⟨k, hk⟩
  simpa [Vector.get_eq_getElem] using wrap32_toInt hlo hhi

end Sys2Proof.Machine

section
open Sys2Proof Sys2Proof.Machine

/-- Settles O17: the immediate's signed reading is within the range `wrap32` keeps, and `r0` is never a source. -/
theorem sourceValueIsImmediateOrRegister : Obligations.SourceValueIsImmediateOrRegister := by
  refine fun s => ⟨fun f => ?_, fun r f hr => resolve_reg s f hr, fun src v => resolve_write_zero s v src⟩
  obtain ⟨hlo, hhi⟩ := sext21_range f
  rw [resolve_imm, wrap32_toInt (by omega) (by omega), ← sext21_eq_toInt]
  exact ⟨rfl, hlo, hhi⟩

/-- Settles O18: `mov` writes the source value. -/
theorem movCopiesTheSourceValue : Obligations.MovCopiesTheSourceValue :=
  fun tgt src _ => exists_exec_of_written (i := .mov tgt src) rfl

/-- Settles O19: `add` writes the wrapped sum. -/
theorem addWritesTheWrappedSum : Obligations.AddWritesTheWrappedSum :=
  fun tgt src _ => exists_exec_of_written (i := .add tgt src) rfl

/-- Settles O20: `sub` writes the wrapped difference. -/
theorem subWritesTheWrappedDifference : Obligations.SubWritesTheWrappedDifference :=
  fun tgt src _ => exists_exec_of_written (i := .sub tgt src) rfl

/-- Settles O21: `mul` writes the wrapped product. -/
theorem mulWritesTheWrappedProduct : Obligations.MulWritesTheWrappedProduct :=
  fun tgt src _ => exists_exec_of_written (i := .mul tgt src) rfl

/-- Settles O22: floor division on the integers is the floor of the rational quotient. -/
theorem divWritesTheWrappedFloor : Obligations.DivWritesTheWrappedFloor := by
  intro tgt src s hne
  rw [← aluDiv_eq_wrap32_floor _ hne]
  exact exists_exec_of_written (written_div_of_ne_zero tgt hne)

/-- Settles O25: the range of floor division, and the one quotient outside it, which wraps to the dividend. -/
theorem divisionOverflowKeepsTheTarget : Obligations.DivisionOverflowKeepsTheTarget := by
  refine ⟨fun a b hb => ?_, fun tgt src s ha hb => ?_⟩
  · rw [floor_intCast_div_intCast _ (toInt_ne_zero hb)]
    exact not_fdiv_range_iff a hb
  · have hne : s.resolve src ≠ 0 := fun hzero => by simp [hzero] at hb
    have hw : written (.div tgt src) s = some (s.read tgt) := by
      rw [written_div_of_ne_zero tgt hne, aluDiv_overflow ha hb]
    obtain ⟨t, hexec, -, -, hacc, htrace⟩ := exists_exec_of_written hw
    exact ⟨t, hexec, exec_x_of_written_same hexec hw, hacc.status, htrace⟩

/-- Settles O26: `wrap32` keeps the value modulo `2^32`, and the results are those of the words. -/
theorem resultsAreModuloTwoToThe32 : Obligations.ResultsAreModuloTwoToThe32 := by
  refine fun a b => ⟨wrap32_toInt_emod _, wrap32_toInt_emod _, wrap32_toInt_emod _, ?_, ?_, ?_⟩
  · rw [aluAdd_eq, BitVec.toNat_add]
  · rw [aluSub_eq, BitVec.toNat_sub]
    omega
  · rw [aluMul_eq, BitVec.toNat_mul]

/-- Settles O27: source and target read the same value, and each result in that value. -/
theorem sameRegisterReadsBeforeTheWrite : Obligations.SameRegisterReadsBeforeTheWrite := by
  intro r f s hr
  have hsrc : s.resolve (.reg r f) = s.read r := resolve_reg s f hr
  have reads (i : Instr) {v : Word} (hw : written i s = some v) : ∃ t, exec i s = .next t ∧ t.read i.target = v := by
    obtain ⟨t, hexec, hread, -⟩ := exists_exec_of_written hw
    exact ⟨t, hexec, hread⟩
  refine ⟨?_, reads (.add r (.reg r f)) ?_, reads (.sub r (.reg r f)) ?_, reads (.mul r (.reg r f)) ?_,
    fun hne => reads (.div r (.reg r f)) ?_, fun hzero => ?_⟩
  · have hexec := exec_eq (.mov r (.reg r f)) s
    exact ⟨_, hexec, exec_x_of_written_same hexec (congrArg some hsrc)⟩
  · rw [written, hsrc, aluAdd, ← Int.two_mul]
  · rw [written, hsrc, aluSub, Int.sub_self]
    rfl
  · rw [written, hsrc, aluMul, pow_two]
  · rw [written_div_of_ne_zero r (hsrc ▸ hne), hsrc, aluDiv_self hne]
  · have hexec := exec_eq (.div r (.reg r f)) s
    have hw := written_div_of_zero r (hsrc.trans hzero)
    refine ⟨_, hexec, exec_x_of_skipped hexec hw, ?_⟩
    rw [exec_trace hexec, hw]
    simp [diagnostics]

/-- Settles O55: each result commutes with `wrap32`. -/
theorem wrappingCommutesExceptWithDivision : Obligations.WrappingCommutesExceptWithDivision :=
  fun i s _ hi hx => ⟨_, exec_eq i s, regsAfter_of_wrapped hx (written_of_wrapped hx hi)⟩

/-- Settles O56: the two machines write alike, and `wrap32` keeps every register, old or just written. -/
theorem machinesAgreeWhileValuesStayInRange : Obligations.MachinesAgreeWhileValuesStayInRange := by
  intro i s u hx hrange
  refine ⟨_, exec_eq i s, ?_⟩
  dsimp only
  rw [regsAfter_of_wrapped (wrapped_of_toInt hx) (written_of_signed hx i)]
  refine toInt_map_wrap32 fun r => ?_
  obtain hold | hnew := get_unboundedApply i u r
  · rw [hold, get_of_signed hx]
    exact ⟨BitVec.le_toInt _, BitVec.toInt_lt⟩
  · exact hrange _ hnew

end

/-! What a step reads, what it leaves to the tables, and what a finished run delivers: the laws of the sequencer at any
tables (00_scope, 43_sequencing) and the obligations about them. -/

namespace Sys2Proof.Machine

/-! ## What a step depends on (60_exceptions section 6, 43_sequencing section 2) -/

/-- The diagnostics of an instruction depend on the registers through what it writes only. -/
theorem written_with_trace (i : Instr) (s : State) (tr : List Event) :
    written i { s with trace := tr } = written i s :=
  written_congr (resolve_congr fun _ _ _ _ => rfl) fun _ => rfl

/-- An instruction adds its events to whatever trace it finds. -/
theorem exec_with_trace {i : Instr} {s t : State} (h : exec i s = .next t) (tr : List Event) :
    exec i { s with trace := tr } =
      .next { t with trace := tr ++ s.rowOf i :: diagnostics s (written i s) } := by
  obtain ⟨hx, hpc, hcycles, hinstret, hstatus, hprog, -⟩ := exec_next_eq h
  rw [exec_eq, written_with_trace, hx, hpc, hcycles, hinstret, hstatus, hprog]
  cases written i s <;> rfl

/-- A step's kind depends on the status, `pc` and the program only; so does all it leaves but the registers and the
trace. -/
theorem step_congr {s s' t : State} (hpc : s'.pc = s.pc) (hcycles : s'.cycles = s.cycles)
    (hinstret : s'.instret = s.instret) (hstatus : s'.status = s.status) (hprog : s'.prog = s.prog)
    (h : step s = .next t) : ∃ u, step s' = .next u ∧ u.pc = t.pc ∧ u.cycles = t.cycles ∧ u.instret = t.instret ∧
      u.status = t.status ∧ u.prog = t.prog := by
  obtain ⟨hst, hwf, hcases⟩ := step_next_cases h
  rw [← hstatus] at hst
  rw [← hprog] at hwf
  rw [← hprog, ← hpc] at hcases
  obtain ⟨hhalt, rfl⟩ | ⟨d, hfail, rfl⟩ | ⟨w, i, hruns, hexec⟩ := hcases
  · refine ⟨_, step_of_haltsAt hst hwf hhalt, ?_⟩
    rw [halt_eq, halt_eq, hinstret, hpc]
    exact ⟨rfl, hcycles, rfl, rfl, hprog⟩
  · refine ⟨_, step_of_failsAt hst hwf hfail, hpc, hcycles, hinstret, ?_, hprog⟩
    rw [raise_status, raise_status, hpc]
  · obtain ⟨-, htpc, htcycles, htinstret, htstatus, htprog, -⟩ := exec_next_eq hexec
    refine ⟨_, (step_of_runsAt hst hwf hruns).trans (exec_eq i s'), ?_⟩
    rw [htpc, htcycles, htinstret, htstatus, htprog, hpc, hcycles, hinstret, hstatus, hprog]
    exact ⟨rfl, rfl, rfl, rfl, rfl⟩

/-! ## A step at any tables (00_scope R7, R9) -/

theorem execWith_tables : execWith tables = exec :=
  funext fun i => funext fun s => (exec_eq_execWith i s).symm

theorem stepWith_tables : stepWith tables = step := by
  funext s
  rw [stepWith, execWith_tables, step]

theorem stepWith_of_haltsAt (T : Tables) {s : State} (hst : s.status = .running)
    (hwf : programWellFormed s.prog = true) (h : HaltsAt s.prog s.pc) : stepWith T s = .next s.halt := by
  obtain hend | ⟨e, he, hs⟩ := h
  · simp [stepWith, State.stepRun, hst, hwf, State.sequence, State.fetch, hend]
  · simp [stepWith, State.stepRun, hst, hwf, State.sequence, State.fetch, he, State.runEntry, hs]

/-- A step that answers a state was taken while running, with `pc` in range. -/
theorem stepWith_next {T : Tables} {s t : State} (h : stepWith T s = .next t) :
    s.status = .running ∧ programWellFormed s.prog = true ∧ s.pc ≤ s.prog.length := by
  have hstep {o : Host.Outcome State Fault Refusal} (ho : s.stepRun T (execWith T) = o) : o = .next t :=
    ho.symm.trans h
  obtain ⟨-, ho | ho⟩ | ⟨-, -, ho⟩ | ⟨hst, hwf, hcases⟩ := step_cases s T (execWith T)
  · cases hstep ho
  · cases hstep ho
  · cases hstep ho
  refine ⟨hst, hwf, ?_⟩
  obtain ⟨-, -, ho⟩ | ⟨-, hpc, -⟩ | ⟨e, he, -⟩ := hcases
  · cases hstep ho
  · exact hpc.le
  · exact (List.getElem?_eq_some_iff.mp he).1.le

section AnyTables
variable {T : Tables} {s : State} {e : Entry} (hst : s.status = .running) (hwf : programWellFormed s.prog = true)
  (he : s.prog[s.pc]? = some e) (hs : e.isSentinel = false)
include hst hwf he hs

theorem stepWith_of_error {d : Diag}
    (h : e.encode T = .error d ∨ ∃ w, e.encode T = .ok w ∧ decodeWith T w = .error d) :
    stepWith T s = .next (s.raise d.kind d.token) := by
  obtain henc | ⟨w, henc, hdec⟩ := h
  · simp [stepWith, State.stepRun, hst, hwf, State.sequence, State.fetch, he, State.runEntry, hs, henc]
  · simp [stepWith, State.stepRun, hst, hwf, State.sequence, State.fetch, he, State.runEntry, hs, henc,
      State.runWord, hdec]

theorem stepWith_of_decoded {w : Word} {i : Instr} (henc : e.encode T = .ok w) (hdec : decodeWith T w = .ok i) :
    stepWith T s = execWith T i s := by
  simp [stepWith, State.stepRun, hst, hwf, State.sequence, State.fetch, he, State.runEntry, hs, henc,
    State.runWord, hdec]

end AnyTables

/-- The row at any tables carries the entry's own word (43_sequencing R132). -/
theorem rowWith_eq {T : Tables} (hT : T.Valid) {s : State} {e : Entry} {w : Word} {i : Instr}
    (he : s.prog[s.pc]? = some e) (hdec : decodeWith T w = .ok i) :
    s.rowWith T i = .row s.pc e.reported w (cost i.mnemonic) := by
  have hfetch : s.fetch = some e := he
  rw [State.rowWith, encodeWith_of_decodeWith hT hdec, hfetch, Option.bind_some]

/-! ## Runs at two choices of the tables (92_eei_decisions D1, D2, D3) -/

/-- The states are alike but for the words in the rows. -/
structure AlikeButForWords (s s' : State) : Prop where
  x : s'.x = s.x
  pc : s'.pc = s.pc
  cycles : s'.cycles = s.cycles
  instret : s'.instret = s.instret
  status : s'.status = s.status
  prog : s'.prog = s.prog
  trace : s'.trace.map Event.withoutWord = s.trace.map Event.withoutWord

namespace AlikeButForWords

theorem refl (s : State) : AlikeButForWords s s := ⟨rfl, rfl, rfl, rfl, rfl, rfl, rfl⟩

variable {s s' : State} (h : AlikeButForWords s s')
include h

theorem halt : AlikeButForWords s.halt s'.halt := by
  rw [halt_eq, halt_eq, h.instret, h.pc]
  exact { h with status := rfl, pc := rfl, instret := rfl }

theorem raise (kind : ErrorKind) (token : Token) : AlikeButForWords (s.raise kind token) (s'.raise kind token) := by
  refine { h with status := ?_ }
  rw [raise_status, raise_status, h.pc]

theorem written (i : Instr) : written i s' = written i s := by
  have hread (r : Reg) : s'.read r = s.read r := congrArg (·.get r) h.x
  exact written_congr (resolve_congr fun r _ _ _ => hread r) fun _ => hread i.target

theorem rowWith (T T' : Tables) (i : Instr) : (s'.rowWith T' i).withoutWord = (s.rowWith T i).withoutWord := by
  simp only [State.rowWith, State.fetch, Event.withoutWord, h.pc, h.prog]

theorem exec {T T' : Tables} {i : Instr} {t : State} (ht : execWith T i s = .next t) :
    ∃ t', execWith T' i s' = .next t' ∧ AlikeButForWords t t' := by
  rw [execWith_eq] at ht
  cases ht
  refine ⟨_, execWith_eq T' i s', ?_⟩
  constructor
  case x => exact regsAfter_congr i h.x
  case pc => simp only [h.pc]
  case cycles => simp only [h.cycles]
  case instret => simp only [h.instret]
  case status => exact h.status
  case prog => exact h.prog
  case trace =>
    have hdiag : diagnostics s' (Machine.written i s') = diagnostics s (Machine.written i s) := by
      rw [h.written i]
      cases Machine.written i s <;> simp [diagnostics, h.pc]
    simp only [List.map_append, List.map_cons, h.trace, h.rowWith T T' i, hdiag]

end AlikeButForWords

/-- A step at one choice of the tables is matched at any other, at an entry that is not a word; and it keeps the
program. -/
theorem AlikeButForWords.step {T T' : Tables} (hT : T.Valid) (hT' : T'.Valid) {s s' t : State}
    (h : AlikeButForWords s s') (hne : ∀ w, .word w ∉ s.prog) (ht : stepWith T s = .next t) :
    ∃ t', stepWith T' s' = .next t' ∧ AlikeButForWords t t' ∧ t.prog = s.prog := by
  obtain ⟨hst, hwf, hpc⟩ := stepWith_next ht
  have hst' : s'.status = .running := h.status.trans hst
  have hwf' : programWellFormed s'.prog = true := h.prog ▸ hwf
  obtain hhalt | ⟨e, he, hs⟩ := haltsAt_or_entry hpc
  · have hhalt' : HaltsAt s'.prog s'.pc := by rwa [h.prog, h.pc]
    cases (stepWith_of_haltsAt T hst hwf hhalt).symm.trans ht
    exact ⟨_, stepWith_of_haltsAt T' hst' hwf' hhalt', h.halt, by rw [halt_eq]⟩
  · have he' : s'.prog[s'.pc]? = some e := by rwa [h.prog, h.pc]
    have hword (w : Word) : e ≠ .word w := fun hew => hne w (hew ▸ List.mem_of_getElem? he)
    obtain ⟨d, henc, henc'⟩ | ⟨w, w', i, henc, henc', hdec, hdec'⟩ := encode_agrees hT hT' hword
    · cases (stepWith_of_error hst hwf he hs (.inl henc)).symm.trans ht
      exact ⟨_, stepWith_of_error hst' hwf' he' hs (.inl henc'), h.raise d.kind d.token, rfl⟩
    · rw [stepWith_of_decoded hst hwf he hs henc hdec] at ht
      obtain ⟨t', ht', halike⟩ := h.exec (T' := T') ht
      rw [execWith_eq] at ht
      cases ht
      exact ⟨t', (stepWith_of_decoded hst' hwf' he' hs henc' hdec').trans ht', halike, rfl⟩

/-- The first step of a run that answers a state, for any machine. -/
theorem core_run_succ_inv {M : Host.Core} {s t : M.State} {k : Nat} (h : M.run (k + 1) s = .next t) :
    ∃ u, M.step s = .next u ∧ M.run k u = .next t := by
  rw [Host.Core.run] at h
  split at h
  · next u hu => exact ⟨u, hu, h⟩
  · cases h
  · cases h

theorem core_run_next {M : Host.Core} {s u : M.State} (h : M.step s = .next u) (k : Nat) :
    M.run (k + 1) s = M.run k u := by
  rw [Host.Core.run, h]

/-- A run at one choice of the tables is matched at any other, of a program without word-level entries. -/
theorem AlikeButForWords.run {T T' : Tables} (hT : T.Valid) (hT' : T'.Valid) {k : Nat} : ∀ {s s' t : State},
    AlikeButForWords s s' → (∀ w, .word w ∉ s.prog) → Host.Core.run (coreWith T) k s = .next t →
    ∃ t', Host.Core.run (coreWith T') k s' = .next t' ∧ AlikeButForWords t t' := by
  induction k with
  | zero =>
    intro s s' t h _ ht
    cases ht
    exact ⟨s', rfl, h⟩
  | succ k ih =>
    intro s s' t h hne ht
    obtain ⟨u, hu, ht⟩ := core_run_succ_inv ht
    obtain ⟨u', hu', halike, hprog⟩ := h.step hT hT' hne hu
    obtain ⟨t', ht', hfin⟩ := ih halike (hprog ▸ hne) ht
    exact ⟨t', (core_run_next (M := coreWith T') hu' k).trans ht', hfin⟩

/-! ## The CPI figure (43_sequencing R136) -/

/-- A number `h` is within one half of `m / n` when `n * h` is within half of `n` from `m`. -/
theorem abs_sub_div_le_half {h m n : Nat} (hn : 0 < n)
    (hlo : 2 * m ≤ 2 * (n * h) + n) (hhi : 2 * (n * h) ≤ 2 * m + n) :
    |(h : ℚ) - m / n| ≤ 1 / 2 := by
  have hn' : (0 : ℚ) < n := Nat.cast_pos.mpr hn
  have hlo' : 2 * (m : ℚ) ≤ 2 * (n * h) + n := by exact_mod_cast hlo
  have hhi' : 2 * ((n : ℚ) * h) ≤ 2 * m + n := by exact_mod_cast hhi
  have hdiv : (n : ℚ) * (m / n) = m := by field_simp
  rw [abs_le]
  constructor <;> nlinarith

/-- The figure is the quotient of `100 * cycles` by `instret`, or one more; whichever is nearer. -/
theorem cpiHundredths_spec (c : Nat) {n : Nat} (hn : 0 < n) : ∃ h, cpiHundredths c n = some h ∧
    2 * (100 * c) ≤ 2 * (n * h) + n ∧ 2 * (n * h) ≤ 2 * (100 * c) + n := by
  have hdiv := Nat.div_add_mod (100 * c) n
  have hmod := Nat.mod_lt (100 * c) hn
  have hsucc : n * (100 * c / n + 1) = n * (100 * c / n) + n := Nat.mul_succ ..
  rw [cpiHundredths, if_neg (Nat.ne_of_gt hn)]
  dsimp only
  split
  · exact ⟨_, rfl, by omega, by omega⟩
  · split
    · exact ⟨_, rfl, by omega, by omega⟩
    · split
      · exact ⟨_, rfl, by omega, by omega⟩
      · exact ⟨_, rfl, by omega, by omega⟩

end Sys2Proof.Machine

section
open Sys2Proof Sys2Proof.Machine

/-- Settles O32: the entry's word decodes to the instruction the step runs. -/
theorem stepRunsTheDecodedInstruction : Obligations.StepRunsTheDecodedInstruction :=
  fun _ _ _ hst hwf hruns => step_of_runsAt hst hwf hruns

/-- Settles O38: the three kinds of step, two of which change the status only. -/
theorem stepIsAllOrNothing : Obligations.StepIsAllOrNothing := by
  intro s t h
  obtain ⟨hst, -, ⟨-, rfl⟩ | ⟨d, -, rfl⟩ | ⟨w, i, hruns, hexec⟩⟩ := step_next_cases h
  · refine .inr ⟨?_, halt_status_ne_running s⟩
    rw [halt_eq]
  · exact .inr ⟨rfl, nofun⟩
  · exact .inl ⟨w, i, hruns, hexec, exec_accounted hexec, exec_onlyRegister hexec, (exec_status hexec).trans hst⟩

/-- Settles O39: a step that is not an instruction keeps both, and an instruction adds its events. -/
theorem programIsImmutableAndTraceOnlyGrows : Obligations.ProgramIsImmutableAndTraceOnlyGrows := by
  intro s t h
  refine ⟨step_prog h, ?_⟩
  obtain ⟨st, rfl⟩ | ⟨w, i, -, hexec⟩ := step_status_or_exec h
  · exact ⟨[], (List.append_nil _).symm⟩
  · exact ⟨_, exec_trace hexec⟩

/-- Settles O40: neither the kind of a step nor an instruction's effect depends on the trace. -/
theorem noStepReadsTheTrace : Obligations.NoStepReadsTheTrace := by
  intro s t tr h
  obtain ⟨hst, hwf, ⟨hhalt, rfl⟩ | ⟨d, hfail, rfl⟩ | ⟨w, i, hruns, hexec⟩⟩ := step_next_cases h
  · refine ⟨[], ?_⟩
    rw [step_of_haltsAt (s := { s with trace := tr }) hst hwf hhalt, halt_eq, halt_eq, List.append_nil, List.append_nil]
    exact ⟨rfl, rfl⟩
  · refine ⟨[], ?_⟩
    rw [step_of_failsAt (s := { s with trace := tr }) hst hwf hfail, List.append_nil, List.append_nil]
    exact ⟨rfl, rfl⟩
  · refine ⟨_, exec_trace hexec, ?_⟩
    rw [step_of_runsAt (s := { s with trace := tr }) hst hwf hruns]
    exact exec_with_trace hexec tr

/-- Settles O41: the two states agree on all that decides a step's control, timing and errors. -/
theorem controlAndTimingIgnoreTheRegisters : Obligations.ControlAndTimingIgnoreTheRegisters :=
  fun s _ _ _ h => step_congr (s := s) rfl rfl rfl rfl rfl h

/-- Settles O42: the reset values, read off the state a run starts in. -/
theorem resetLeavesTheResetValues : Obligations.ResetLeavesTheResetValues := by
  refine fun p => ⟨fun r => (leftAloneReadsZero_load p).read_zero r nofun, rfl, rfl, rfl, rfl, rfl, rfl, rfl, ?_⟩
  rintro s rfl
  rfl

/-- Settles O51: the status each kind of step leaves, and what is delivered with it. -/
theorem haltedRunsDeliverFinalAndFaultedRunsOnlyTheFault :
    Obligations.HaltedRunsDeliverFinalAndFaultedRunsOnlyTheFault := by
  refine ⟨fun s hst hwf hhalt hne => ⟨_, step_of_haltsAt hst hwf hhalt, ?_⟩,
    fun s d hst hwf hfail => ⟨_, step_of_failsAt hst hwf hfail, rfl⟩, fun s hst => ?_⟩
  · rw [halt_eq, if_neg hne]
    rfl
  · simp only [State.output, hst]

/-- Settles O54: the figure leaves at most half of `instret` over, in either direction. -/
theorem cpiIsRoundedToTwoDecimals : Obligations.CpiIsRoundedToTwoDecimals := by
  refine ⟨fun c => rfl, fun c n hn => ?_, by decide⟩
  obtain ⟨h, hh, hlo, hhi⟩ := cpiHundredths_spec c hn
  have hhalf := abs_sub_div_le_half hn hlo hhi
  rw [Nat.cast_mul] at hhalf
  exact ⟨h, hh, hhalf⟩

/-- Settles O57: the sequencer's arms at a fixed entry, and `exec` at any tables, which differs in the row only. -/
theorem stepRunsTheDecodedInstructionAtAnyTables : Obligations.StepRunsTheDecodedInstructionAtAnyTables := by
  refine ⟨fun s => congrFun stepWith_tables s, fun T s e hst hwf he hs =>
    ⟨fun d hfail => stepWith_of_error hst hwf he hs hfail, fun w i hT henc hdec => ?_⟩⟩
  refine ⟨_, _, exec_eq i s, rfl, ?_⟩
  rw [stepWith_of_decoded hst hwf he hs henc hdec, execWith_eq, rowWith_eq hT he hdec]

/-- Settles O58: runs at two choices of the tables stay alike but for the words, step by step. -/
theorem runsDoNotDependOnTheTables : Obligations.RunsDoNotDependOnTheTables := by
  refine ⟨fun T T' p k t hT hT' hne ht => ?_, fun k s => ?_⟩
  · obtain ⟨u, hu, h⟩ := (AlikeButForWords.refl (State.load p)).run hT hT' hne ht
    exact ⟨u, hu, h.x, h.pc, h.cycles, h.instret, h.status, h.prog, h.trace⟩
  · unfold coreWith
    rw [stepWith_tables]
    rfl

end

/-! How a text is cut into tokens, how literals are read, and which check of the encoder fails first: the laws of the
parse stage (30_encoding section 6) and the obligations about it. -/

namespace Sys2Proof

open Machine

/-! ## Tokens (30_encoding R70) -/

/-- The token read so far, reversed, as the list of tokens it ends as. -/
def flushed (cur : List Char) : List Text := if cur.isEmpty then [] else [cur.reverse]

/-- Characters that are not blank are read into the current token. -/
theorem tokensFrom_token {a : Text} (ha : ∀ c ∈ a, isBlank c = false) (rest : Text) :
    ∀ cur, tokensFrom cur (a ++ rest) = tokensFrom (a.reverse ++ cur) rest := by
  induction a with
  | nil => exact fun cur => rfl
  | cons c a ih =>
    intro cur
    obtain ⟨hc, ha⟩ := List.forall_mem_cons.mp ha
    rw [List.cons_append, tokensFrom, if_neg (by simp [hc]), ih ha, List.reverse_cons, List.append_assoc]
    rfl

/-- A blank ends the current token. -/
theorem tokensFrom_blank {c : Char} (hc : isBlank c = true) (cur rest : List Char) :
    tokensFrom cur (c :: rest) = flushed cur ++ tokensFrom [] rest := by
  rw [tokensFrom, if_pos hc, flushed]
  split <;> rfl

/-- A run of blanks ends the current token; only where there is none may the run be empty. -/
theorem tokensFrom_blankRun {g : Text} (hg : IsBlankRun g) (rest : Text) :
    ∀ cur : List Char, (g = [] → cur = []) → tokensFrom cur (g ++ rest) = flushed cur ++ tokensFrom [] rest := by
  induction g with
  | nil =>
    intro cur hcur
    rw [hcur rfl]
    rfl
  | cons c g ih =>
    intro cur _
    obtain ⟨hc, hg⟩ := List.forall_mem_cons.mp hg
    rw [List.cons_append, tokensFrom_blank hc, ih hg [] fun _ => rfl]
    rfl

theorem tokensFrom_trailing {z : Text} (hz : IsBlankRun z) (cur : List Char) : tokensFrom cur z = flushed cur := by
  cases z with
  | nil => rfl
  | cons c z =>
    have h := tokensFrom_blankRun hz [] cur nofun
    simpa [tokensFrom] using h

theorem flushed_reverse {a : Text} (ha : a ≠ []) : flushed a.reverse = [a] := by
  simp [flushed, ha]

theorem spacedText_cons (g a : Text) (ts : List (Text × Text)) (z : Text) :
    spacedText ((g, a) :: ts) z = g ++ (a ++ spacedText ts z) := by
  simp [spacedText]

/-- Reading a spaced text after the token `cur`: the gap before its first token ends `cur`. -/
theorem tokensFrom_spacedText {z : Text} (hz : IsBlankRun z) {ts : List (Text × Text)} :
    ∀ cur : List Char, (∀ gt ∈ ts, IsBlankRun gt.1 ∧ IsToken gt.2) → (∀ gt ∈ ts.tail, gt.1 ≠ []) →
      (∀ gt ∈ ts.head?, gt.1 = [] → cur = []) →
      tokensFrom cur (spacedText ts z) = flushed cur ++ ts.map Prod.snd := by
  induction ts with
  | nil =>
    intro cur _ _ _
    rw [List.map_nil, List.append_nil]
    exact tokensFrom_trailing hz cur
  | cons gt ts ih =>
    intro cur hts hgaps hfirst
    obtain ⟨g, a⟩ := gt
    obtain ⟨⟨hg, hne, ha⟩, hts⟩ := List.forall_mem_cons.mp hts
    have hlater : ∀ gt ∈ ts.tail, gt.1 ≠ [] := fun gt hgt => hgaps gt (List.mem_of_mem_tail hgt)
    have hnext : ∀ gt ∈ ts.head?, gt.1 = [] → a.reverse ++ [] = [] := fun gt hgt hnil =>
      absurd hnil (hgaps gt (List.mem_of_mem_head? hgt))
    rw [spacedText_cons, tokensFrom_blankRun hg _ cur (hfirst (g, a) rfl), tokensFrom_token ha,
      ih _ hts hlater hnext, List.append_nil, flushed_reverse hne]
    rfl

theorem tokens_spacedText {ts : List (Text × Text)} {z : Text} (h : IsSpacing ts z) :
    tokens (spacedText ts z) = ts.map Prod.snd := by
  obtain ⟨hts, hgaps, hz⟩ := h
  exact tokensFrom_spacedText hz [] hts hgaps fun _ _ _ => rfl

/-- Every text is a spaced one: a blank joins the gap before it, another character the token after it. -/
theorem exists_spacing (t : Text) : ∃ ts z, IsSpacing ts z ∧ t = spacedText ts z := by
  induction t with
  | nil => exact ⟨[], [], by simp [IsSpacing, IsBlankRun], rfl⟩
  | cons c t ih =>
    obtain ⟨ts, z, ⟨hts, hgaps, hz⟩, rfl⟩ := ih
    cases hc : isBlank c with
    | true =>
      cases ts with
      | nil => exact ⟨[], c :: z, ⟨nofun, nofun, List.forall_mem_cons.mpr ⟨hc, hz⟩⟩, rfl⟩
      | cons gt ts =>
        obtain ⟨g, a⟩ := gt
        obtain ⟨⟨hg, ha⟩, hts⟩ := List.forall_mem_cons.mp hts
        refine ⟨(c :: g, a) :: ts, z, ⟨List.forall_mem_cons.mpr ⟨⟨?_, ha⟩, hts⟩, hgaps, hz⟩, ?_⟩
        · exact List.forall_mem_cons.mpr ⟨hc, hg⟩
        · rw [spacedText_cons, spacedText_cons, List.cons_append]
    | false =>
      have hnew : IsBlankRun [] ∧ IsToken [c] := ⟨nofun, List.cons_ne_nil c [], by simp [hc]⟩
      cases ts with
      | nil => exact ⟨[([], [c])], z, ⟨List.forall_mem_singleton.mpr hnew, nofun, hz⟩, rfl⟩
      | cons gt ts =>
        obtain ⟨g, a⟩ := gt
        by_cases hg : g = []
        · obtain ⟨⟨-, -, ha⟩, hts⟩ := List.forall_mem_cons.mp hts
          refine ⟨([], c :: a) :: ts, z, ⟨List.forall_mem_cons.mpr ⟨⟨nofun, ?_⟩, hts⟩, hgaps, hz⟩, ?_⟩
          · exact ⟨List.cons_ne_nil c a, List.forall_mem_cons.mpr ⟨hc, ha⟩⟩
          · rw [spacedText_cons, spacedText_cons, hg]
            rfl
        · exact ⟨([], [c]) :: (g, a) :: ts, z, ⟨List.forall_mem_cons.mpr ⟨hnew, hts⟩,
            List.forall_mem_cons.mpr ⟨hg, hgaps⟩, hz⟩, rfl⟩

/-! ## Decimal literals (30_encoding R76) -/

theorem digitOf_eq_some {c : Char} (h : 48 ≤ c.toNat ∧ c.toNat ≤ 57) : digitOf c = some (c.toNat - 48) :=
  if_pos h

theorem digitsFrom_of_digits {ds : Text} (h : ∀ c ∈ ds, 48 ≤ c.toNat ∧ c.toNat ≤ 57) :
    ∀ acc, digitsFrom acc ds = some (ds.foldl (fun n c => 10 * n + (c.toNat - 48)) acc) := by
  induction ds with
  | nil => exact fun acc => rfl
  | cons c ds ih =>
    intro acc
    obtain ⟨hc, hds⟩ := List.forall_mem_cons.mp h
    simp only [digitsFrom, digitOf_eq_some hc, List.foldl_cons, ih hds]

theorem digits_of_isDigits {ds : Text} (h : IsDigits ds) : digits ds = some (decimalValue ds) := by
  rw [digits, if_neg (by simp [h.1]), digitsFrom_of_digits h.2, decimalValue]

/-- Only digits are read as digits. -/
theorem digits_of_digitsFrom {ds : Text} : ∀ {acc n : Nat}, digitsFrom acc ds = some n →
    ∀ c ∈ ds, 48 ≤ c.toNat ∧ c.toNat ≤ 57 := by
  induction ds with
  | nil => exact fun _ => nofun
  | cons c ds ih =>
    intro acc n h
    by_cases hc : 48 ≤ c.toNat ∧ c.toNat ≤ 57
    · rw [digitsFrom, digitOf_eq_some hc] at h
      exact List.forall_mem_cons.mpr ⟨hc, ih h⟩
    · have hnone : digitOf c = none := if_neg hc
      simp [digitsFrom, hnone] at h

theorem isDigits_of_digits {ds : Text} {n : Nat} (h : digits ds = some n) : IsDigits ds := by
  cases ds with
  | nil => cases h
  | cons c ds => exact ⟨List.cons_ne_nil c ds, digits_of_digitsFrom h⟩

/-- A string of digits has no sign. -/
theorem literalOf_of_isDigits {ds : Text} (h : IsDigits ds) : literalOf ds = some (decimalValue ds : Int) := by
  fun_cases literalOf ds with
  | case1 rest =>
    have hsign := h.2 '-' List.mem_cons_self
    exact absurd hsign (by decide)
  | case2 rest =>
    have hsign := h.2 '+' List.mem_cons_self
    exact absurd hsign (by decide)
  | case3 =>
    rw [digits_of_isDigits h]
    rfl

/-- What reads as a literal is an optional sign and digits. -/
theorem isDigits_of_literalOf {t : Text} {v : Int} : literalOf t = some v →
    ∃ ds, IsDigits ds ∧ (t = ds ∨ t = '-' :: ds ∨ t = '+' :: ds) := by
  have isDigits {ds : Text} {f : Nat → Int} (h : (digits ds).map f = some v) : IsDigits ds := by
    obtain ⟨n, hn, -⟩ := Option.map_eq_some_iff.mp h
    exact isDigits_of_digits hn
  fun_cases literalOf t with
  | case1 rest => exact fun h => ⟨rest, isDigits h, .inr (.inl rfl)⟩
  | case2 rest => exact fun h => ⟨rest, isDigits h, .inr (.inr rfl)⟩
  | case3 => exact fun h => ⟨t, isDigits h, .inl rfl⟩

theorem isDigits_toDigits (n : Nat) : IsDigits (Nat.toDigits 10 n) := by
  refine ⟨Nat.toDigits_ne_nil, fun c hc => ?_⟩
  have hdigit := Nat.isDigit_of_mem_toDigits (by decide) (by decide) hc
  exact Char.isDigit_iff_toNat.mp hdigit

/-- The base-ten value is the library's. -/
theorem decimalValue_toDigits (n : Nat) : decimalValue (Nat.toDigits 10 n) = n :=
  Nat.ofDigitChars_ten_toDigits

theorem decimalValue_leadingZeros (k : Nat) (ds : Text) :
    decimalValue (List.replicate k '0' ++ ds) = decimalValue ds := by
  induction k with
  | zero => rfl
  | succ k ih => exact ih

/-! ## The names of mnemonics and registers (30_encoding R73 to R75) -/

theorem mnemonicOf_spelling (mn : Mnemonic) : mnemonicOf mn.spelling = some mn := by
  cases mn <;> decide

theorem mnemonicOf_eq_none {m : Text} (h : ∀ mn : Mnemonic, mn.spelling ≠ m) : mnemonicOf m = none :=
  List.find?_eq_none.mpr fun mn _ => by simpa using h mn

theorem regOf_regSpelling (r : Reg) : regOf (regSpelling r) = some r := by
  revert r
  decide

theorem regOf_eq_none {a : Text} (h : ∀ r, regSpelling r ≠ a) : regOf a = none :=
  List.find?_eq_none.mpr fun r _ => by simpa using h r

/-- No register's name is a literal. -/
theorem literalOf_regSpelling (r : Reg) : literalOf (regSpelling r) = none := by
  revert r
  decide

theorem op2Of_regSpelling (r : Reg) : op2Of (regSpelling r) = some (.reg r) := by
  simp only [op2Of, regOf_regSpelling]

theorem op2Of_of_not_reg {b : Text} (h : ∀ r, regSpelling r ≠ b) : op2Of b = (literalOf b).map Op2.imm := by
  simp only [op2Of, regOf_eq_none h]

theorem op2Of_literal {b : Text} {v : Int} (h : literalOf b = some v) : op2Of b = some (.imm v) := by
  rw [op2Of_of_not_reg, h, Option.map_some]
  rintro r rfl
  cases (literalOf_regSpelling r).symm.trans h

theorem mnemonicsAreSpelt : MnemonicsAreSpelt := by
  unfold MnemonicsAreSpelt
  decide

end Sys2Proof

section
open Sys2Proof Sys2Proof.Machine

/-- Settles O12: reading a spaced text run by run, and putting any text's characters into runs. -/
theorem tokensAreTheRunsBetweenBlanks : Obligations.TokensAreTheRunsBetweenBlanks := by
  refine ⟨fun ts z h => tokens_spacedText h, exists_spacing, fun p a q b r c z ha hb hc hp hq hr hz hq' hr' => ?_⟩
  have hspacing : IsSpacing [(p, a), (q, b), (r, c)] z := by
    refine ⟨?_, ?_, hz⟩
    · simp [hp, ha, hq, hb, hr, hc]
    · simp [hq', hr']
  rw [← show [(p, a), (q, b), (r, c)].map Prod.snd = [a, b, c] from rfl, ← tokens_spacedText hspacing]
  simp [spacedText]

/-- Settles O13: digits are read left to right in base ten, which is how the library spells numbers. -/
theorem decimalLiteralsReadInBaseTen : Obligations.DecimalLiteralsReadInBaseTen := by
  refine ⟨fun ds h => ⟨literalOf_of_isDigits h, ?_, ?_⟩, fun n => ⟨isDigits_toDigits n, decimalValue_toDigits n⟩,
    decimalValue_leadingZeros, fun t v h => isDigits_of_literalOf h⟩
  · rw [literalOf, digits_of_isDigits h]
    rfl
  · rw [literalOf, digits_of_isDigits h]
    rfl

/-- Settles O14: each check's failure, with those before it passed. -/
theorem encoderReportsTheFirstFailingCheck : Obligations.EncoderReportsTheFirstFailingCheck := by
  refine ⟨mnemonicsAreSpelt, registersAreSpelt, fun T t => ⟨encodeText_of_length_ne T, fun m a b ht =>
    ⟨fun hm => encodeText_of_mnemonicOf_none T ht (mnemonicOf_eq_none hm), ?_⟩⟩⟩
  rintro mn rfl
  have hm := mnemonicOf_spelling mn
  refine ⟨fun ha => encodeText_of_regOf_none T ht hm (regOf_eq_none ha), ?_⟩
  rintro tgt rfl
  have ha := regOf_regSpelling tgt
  refine ⟨fun hb hlit => ?_, fun v hlit hv => ?_⟩
  · have hop : op2Of b = none := by rw [op2Of_of_not_reg hb, hlit, Option.map_none]
    exact encodeText_of_op2Of_none T ht hm ha hop
  · have hnot : ¬ (Op2.imm v).Encodable := Int.not_le.mpr hv
    exact encodeText_of_pack_none ht hm ha (op2Of_literal hlit) (pack_of_not_encodable T mn tgt hnot)

/-- Settles O15: the tokens spell the triple, and its literal is one the encoder takes. -/
theorem textEncodesAsItsTriple : Obligations.TextEncodesAsItsTriple := by
  refine ⟨mnemonicsAreSpelt, registersAreSpelt, fun T t mn tgt b ht => ?_⟩
  have encodes {op2 : Op2} {w : Word} (hb : op2Of b = some op2) (hp : pack T mn tgt op2 = some w) :
      ∃ w, pack T mn tgt op2 = some w ∧ encodeText T t = .ok w :=
    ⟨w, hp, encodeText_of_pack_some ht (mnemonicOf_spelling mn) (regOf_regSpelling tgt) hb hp⟩
  refine ⟨fun r hr => ?_, fun v hlit hv => encodes (op2Of_literal hlit) (pack_imm_of_ge T mn tgt hv)⟩
  exact encodes (hr ▸ op2Of_regSpelling r) (pack_reg T mn tgt r)

end
